-- ==== Sys2Proof/Word.lean ====
section
/-! DEFINITION. The word types of ECC-CORE (00_scope R8, R9). -/

namespace Sys2Proof

/-- One byte lane of the bus (20_memory R66). -/
abbrev Byte := BitVec 8

/-- One bus data word and one register word: 32 bits (00_scope R8). -/
abbrev Word := BitVec 32

/-- An offset into the 4 KiB register window: 12 bits (00_scope R8, 20_memory R60). -/
abbrev Offset := BitVec 12

/-- The bits of an operand register. Its window has 32 words of 32 bits (10_state R21), so 1024 bits hold every width W
that 00_scope R5 allows; the bits at or above W are kept 0 (10_state R22). -/
abbrev Operand := BitVec 1024

end Sys2Proof
end

