-- ==== Sys2Proof/Machine/Snapshot.lean ====
section
/-! DEFINITION. Point values (00_scope R13) and the record of operands a command reads (10_state R43). They stand before
Config, since the free latency is a function of them (00_scope R7). -/

namespace Sys2Proof.Machine

/-- A point value (00_scope R13): Identity, or a pair of natural numbers. Equality is that of 42_point_ops R120. -/
inductive Pt where
  | identity
  | affine (x y : Nat)
  deriving DecidableEq, Repr

/-- The snapshot of 10_state R43, taken at acceptance. -/
structure Snapshot where
  op : BitVec 4
  a : Operand
  b : Operand
  p : Operand
  p1 : Pt
  p2 : Pt
  x1 : Operand
  kmag : Operand
  kneg : Bool
  deriving DecidableEq, Repr

end Sys2Proof.Machine
end

