-- ==== Sys2Proof/Config.lean ====
section
/-! DEFINITION. What one implementation fixes (the parameters W and BASE) and the free values (LAT, the pace of SMUL). -/

namespace Sys2Proof

/-- The parameters the spec leaves open: `w` is the operand width W (00_scope R5), `base` the bus address BASE of offset
0x000 (R6). A machine never changes them. -/
structure Config where
  w : Nat
  base : Nat
  deriving DecidableEq, Repr

/-- NW = ceil(W / 32), the number of bus words of an operand register (00_scope R5). -/
def Config.nw (c : Config) : Nat := (c.w + 31) / 32

/-- The parameters of `Machine.State.reset`: W = 32, at which 95_test_vectors works its vectors, and BASE = 0.
DESIGN CHOICE (log 1): the spec leaves both open. -/
def Config.ofReset : Config := { w := 32, base := 0 }

/-- FREE VALUE (log 2): the draw LAT of 00_scope R7, "a function of the command and its operands that the model does not
know". `Config.latency c n sn` is how many engine ticks a machine with the parameters `c` lets go by between the acceptance
that takes the snapshot `sn` as the `n`-th draw and its completion event: any finite number. -/
opaque Config.latency (c : Config) (n : Nat) (sn : Machine.Snapshot) : Nat

/-- FREE VALUE (log 5): how many iterations of the SMUL loop on the snapshot `sn` the engine runs in the tick that takes the
`n`-th draw; the spec holds the loop variables (10_state R44) and gives no timing (43_scalar_multiply R146, 70 R187). -/
opaque Config.smulPace (c : Config) (n : Nat) (sn : Machine.Snapshot) : Nat

end Sys2Proof
end

