-- ==== Sys2Proof/Syntax.lean ====
section
/-! DEFINITION. The instructions: one constructor per row of spec/opcode_table.json. -/

namespace Sys2Proof

/-- What one full-strobe write of CTRL asks for (30_encoding R80, R81, R82, R91). The command word has no operand but OP
(R89); its ignored bits 3:2 and 31:8 (R84) carry nothing, so no constructor holds them. -/
inductive Instr where
  /-- OP 0x1: R = add(P1, P2) (42_point_ops R129). -/
  | add
  /-- OP 0x2: R = add(P1, P1) (42_point_ops R130). -/
  | dbl
  /-- OP 0x3: R = negate(P1) (42_point_ops R124). -/
  | neg
  /-- OP 0x4: X3 = mod_inverse(X1, P) (41_field_arithmetic R113). -/
  | inv
  /-- OP 0x5: R = scalar_multiply(P1, n) (43_scalar_multiply R141). -/
  | smul
  /-- OP 0x6: ONCURVE = is_on_curve(P1) (42_point_ops R122). -/
  | chk
  /-- A command request with the reserved opcode `op` (40_command_engine R105). -/
  | badop (op : BitVec 4)
  /-- The soft reset (70_reset_and_hazards R171). -/
  | srst
  /-- A CTRL write with neither START nor SRST: CTRL.OP <- `op` (30_encoding R85). -/
  | setop (op : BitVec 4)
  deriving DecidableEq, Repr

end Sys2Proof
end

