-- ==== Sys2Proof/WellFormed.lean ====
section
/-! DEFINITION. Well-formed instructions and legal parameters. -/

namespace Sys2Proof

/-- OP values 0x0 and 0x7 to 0xF are reserved (30_encoding R83). -/
def reservedOp (op : BitVec 4) : Bool := op == 0#4 || decide (7 ≤ op.toNat)

/-- An instruction the decoder can answer: BADOP names a reserved opcode, for the six others the command rows match
first (30_encoding R91). -/
def Instr.wf : Instr → Bool
  | .badop op => reservedOp op
  | .add => true
  | .dbl => true
  | .neg => true
  | .inv => true
  | .smul => true
  | .chk => true
  | .srst => true
  | .setop _ => true

/-- Legal parameters: 2 ≤ W ≤ 1024 (00_scope R5) and BASE 4 KiB aligned (R6). -/
def Config.wf (c : Config) : Bool := decide (2 ≤ c.w) && decide (c.w ≤ 1024) && c.base % 4096 == 0

end Sys2Proof
end

