-- ==== Sys2Proof/Decode.lean ====
section
/-! DEFINITION. The decoder of a CTRL write, total on any bytes, and the encoder (30_encoding R80 to R91). -/

namespace Sys2Proof

/-- A row of the opcode table: the bits it compares and their values (30_encoding R82, R91). -/
structure CtrlRow where
  mask : Word
  pat : Word
  deriving DecidableEq, Repr

/-- The row matches the written data. -/
def CtrlRow.hits (r : CtrlRow) (d : Word) : Bool := d &&& r.mask == r.pat

/-- SRST: bit 1 alone is compared (30_encoding R91). -/
def rowSrst : CtrlRow := ⟨0x00000002, 0x00000002⟩
/-- The command rows of 30_encoding R82: START, SRST and OP are compared. -/
def rowAdd : CtrlRow := ⟨0x000000F3, 0x00000011⟩
def rowDbl : CtrlRow := ⟨0x000000F3, 0x00000021⟩
def rowNeg : CtrlRow := ⟨0x000000F3, 0x00000031⟩
def rowInv : CtrlRow := ⟨0x000000F3, 0x00000041⟩
def rowSmul : CtrlRow := ⟨0x000000F3, 0x00000051⟩
def rowChk : CtrlRow := ⟨0x000000F3, 0x00000061⟩
/-- BADOP: a request whose OP no command row matches (30_encoding R91). -/
def rowBadop : CtrlRow := ⟨0x00000003, 0x00000001⟩
/-- SETOP: neither START nor SRST (30_encoding R91). -/
def rowSetop : CtrlRow := ⟨0x00000003, 0x00000000⟩

/-- The OP field, bits 7:4 (30_encoding R80). -/
def opField (d : Word) : BitVec 4 := d.extractLsb' 4 4

/-- The decode of a CTRL write (30_encoding R81), the rows in the order of R91; where the seven request rows and SRST do
not match, SETOP does (`Laws.setop_row_covers_rest`). Every 32-bit value decodes. -/
def decodeWord (d : Word) : Instr :=
  if rowSrst.hits d then .srst
  else if rowAdd.hits d then .add
  else if rowDbl.hits d then .dbl
  else if rowNeg.hits d then .neg
  else if rowInv.hits d then .inv
  else if rowSmul.hits d then .smul
  else if rowChk.hits d then .chk
  else if rowBadop.hits d then .badop (opField d)
  else .setop (opField d)

/-- Four byte lanes as one bus word, lane 0 the least significant (20_memory R66). -/
def bytesWord (b0 b1 b2 b3 : Byte) : Word := b3 ++ b2 ++ b1 ++ b0

/-- The byte lanes of a bus word, lane 0 first (20_memory R66). -/
def wordBytes (d : Word) : List Byte :=
  [d.extractLsb' 0 8, d.extractLsb' 8 8, d.extractLsb' 16 8, d.extractLsb' 24 8]

/-- Why bytes are no instruction: a command is one whole 32-bit word (30_encoding R90), and `have_` bytes are fewer. -/
inductive DecodeReject where
  | truncated (have_ : Nat)
  deriving DecidableEq, Repr

/-- The instruction at the head of a byte list, and the bytes after it. -/
def decode : List Byte → Except DecodeReject (Instr × List Byte)
  | b0 :: b1 :: b2 :: b3 :: rest => .ok (decodeWord (bytesWord b0 b1 b2 b3), rest)
  | bs => .error (.truncated bs.length)

/-- The canonical CTRL word of an instruction: ignored bits 0 (30_encoding R82, R84). -/
def encodeWord : Instr → Word
  | .add => 0x00000011
  | .dbl => 0x00000021
  | .neg => 0x00000031
  | .inv => 0x00000041
  | .smul => 0x00000051
  | .chk => 0x00000061
  | .badop op => (op.setWidth 32 <<< 4) ||| 0x00000001
  | .srst => 0x00000002
  | .setop op => op.setWidth 32 <<< 4

/-- The canonical bytes of an instruction, lane 0 first. -/
def encode (i : Instr) : List Byte := wordBytes (encodeWord i)

/-- The data word whose bits the opcode table numbers as `w`, less the bits at or above `nbits`. -/
def tableWord (nbits w : Nat) : Word := BitVec.ofNat 32 (w % 2 ^ nbits)

/-- What the decoder reads from the instruction whose bits are `w`. -/
def decodeTableWord (nbits w : Nat) : Option Instr :=
  match decode (wordBytes (tableWord nbits w)) with
  | .ok (i, _) => some i
  | .error _ => none

end Sys2Proof
end

