-- ==== Sys2Proof/Machine/State.lean ====
section
/-! DEFINITION. The state of ECC-CORE as plain data (10_state), the reasons a step can stop, and the state after reset. -/

namespace Sys2Proof.Machine

/-- The error codes a command can end with (60_exceptions R150). Codes 6 to 15 are never written (93 I14), so no value of
this type stands for one (log 10). -/
inductive ErrCode where
  | none | badop | param | range | noinv | fatal
  deriving DecidableEq, Repr

/-- The six commands of 30_encoding R82. -/
inductive Command where
  | add | dbl | neg | inv | smul | chk
  deriving DecidableEq, Repr

/-- The names of the ten operand registers (10_state R20, R21). -/
inductive Reg where
  | a | b | p | x1 | y1 | x2 | y2 | k | x3 | y3
  deriving DecidableEq, Repr

/-- The ten operand registers (10_state R20, R24): no aliases, no banks, none hardwired. -/
structure RegFile where
  a : Operand
  b : Operand
  p : Operand
  x1 : Operand
  y1 : Operand
  x2 : Operand
  y2 : Operand
  k : Operand
  x3 : Operand
  y3 : Operand
  deriving DecidableEq, Repr

/-- The loop variables of a running SMUL (10_state R44, 43_scalar_multiply R140): `n` is the remaining magnitude. -/
structure SmulLoop where
  result : Pt
  temp : Pt
  n : Nat
  deriving DecidableEq, Repr

/-- A command in flight: its snapshot (10_state R43), SMUL's working state once the checks have passed (R44), and the
model's own count of engine ticks left before the completion event (00_scope R7, log 2). -/
structure Running where
  snap : Snapshot
  work : Option SmulLoop
  latLeft : Nat
  deriving DecidableEq, Repr

/-- The engine state `eng` (10_state R42). An idle engine holds no snapshot: its value outside BUSY is meaningless (R43). -/
inductive Engine where
  | idle
  | busy (run : Running)
  deriving DecidableEq, Repr

/-- What the host can do (00_scope R12, 70 R170): one bus transaction at an absolute address (40_command_engine R107), the
`wait` loop of 30_encoding R96, or a change of the level of rst_n (`true` is deasserted). -/
inductive HostItem where
  | read (addr : Nat)
  | write (addr : Nat) (data : Word) (strb : BitVec 4)
  | wait
  | rst (level : Bool)
  deriving DecidableEq, Repr

/-- What one transaction answers the host (20_memory R62, R65). -/
inductive BusResp where
  | read (data : Word) (err : Bool)
  | write (err : Bool)
  deriving DecidableEq, Repr

/-- The machine. The fields `inbox`, `resp` and `draws` are the model's own (logs 2, 3, 8); all others are the spec's. -/
structure State where
  /-- W and BASE, and with them the constant of CFG (00_scope R5, R6; 10_state R28). -/
  cfg : Config
  /-- The level of the input rst_n, active low: `false` is asserted (70 R170). -/
  rstN : Bool
  /-- CTRL.OP (10_state R29). -/
  ctrlOp : BitVec 4
  /-- STATUS.DONE (10_state R35). STATUS.BUSY has its home in `eng` (R34). -/
  done : Bool
  /-- STATUS.REJ (10_state R36). -/
  rej : Bool
  /-- STATUS.FATAL (10_state R37). -/
  fatal : Bool
  /-- STATUS.ONCURVE (10_state R38). -/
  oncurve : Bool
  /-- STATUS.ERR (10_state R39). -/
  err : ErrCode
  /-- INTEN.DONE_IE (10_state R40). -/
  doneIe : Bool
  /-- PTFLAGS.INF1 (10_state R31). -/
  inf1 : Bool
  /-- PTFLAGS.INF2 (10_state R31). -/
  inf2 : Bool
  /-- PTFLAGS.KNEG (10_state R31). -/
  kneg : Bool
  /-- PTFLAGS.R_INF (10_state R31). -/
  rInf : Bool
  /-- The operand registers (10_state R20). -/
  regs : RegFile
  /-- The engine, with the command in flight (10_state R42 to R44). -/
  eng : Engine
  /-- The host's actions not yet performed, oldest first (20_memory R61, log 3). -/
  inbox : List HostItem
  /-- The responses the host has received, newest first (20_memory R61, log 8). -/
  resp : List BusResp
  /-- How many free values have been drawn (log 2). -/
  draws : Nat
  deriving DecidableEq, Repr

/-- Why a step stops with a fault. -/
inductive Fault where
  /-- Raised by a host transaction at an address outside the window [BASE, BASE + 0xFFF] (20_memory R60, log 6): it does
  not reach this core. Safe: the model stops where the platform would answer from elsewhere. -/
  | outsideWindow (addr : Nat)
  deriving DecidableEq, Repr

/-- Why a step has no meaning. -/
inductive Refusal where
  /-- Raised by an arm of `exec` whose instruction has no meaning yet. Safe: nothing can be proved of it. -/
  | notModelled (mnemonic : String)
  /-- Raised by a host transaction while rst_n is asserted (70 R170: "gives a transaction during reset no meaning, and
  refuses it"; 93 I6). Safe: the spec excludes it. -/
  | transactionDuringReset
  deriving DecidableEq, Repr

/-- Every operand register 0 (10_state R52). -/
def RegFile.zero : RegFile :=
  { a := 0, b := 0, p := 0, x1 := 0, y1 := 0, x2 := 0, y2 := 0, k := 0, x3 := 0, y3 := 0 }

/-- The reset values of 10_state R52 for the parameters `c`, rst_n deasserted, no host action pending. -/
def State.resetOf (c : Config) : State :=
  { cfg := c, rstN := true, ctrlOp := 0
    done := false, rej := false, fatal := false, oncurve := false, err := .none
    doneIe := false, inf1 := false, inf2 := false, kneg := false, rInf := false
    regs := RegFile.zero, eng := .idle, inbox := [], resp := [], draws := 0 }

/-- The machine right after reset, at W = 32 and BASE = 0 (log 1). -/
def State.reset : State := State.resetOf Config.ofReset

end Sys2Proof.Machine
end

