-- ==== Sys2Proof/Machine/Operands.lean ====
section
/-! DEFINITION. Operands: the register file and its bus words (10_state R20 to R24), points and scalars (R30, R32), the
snapshot (R43). -/

namespace Sys2Proof.Machine

/-- Read an operand register (00_scope R11). -/
def RegFile.get (f : RegFile) : Reg → Operand
  | .a => f.a
  | .b => f.b
  | .p => f.p
  | .x1 => f.x1
  | .y1 => f.y1
  | .x2 => f.x2
  | .y2 => f.y2
  | .k => f.k
  | .x3 => f.x3
  | .y3 => f.y3

/-- Write an operand register (00_scope R11). -/
def RegFile.set (f : RegFile) (r : Reg) (v : Operand) : RegFile :=
  match r with
  | .a => { f with a := v }
  | .b => { f with b := v }
  | .p => { f with p := v }
  | .x1 => { f with x1 := v }
  | .y1 => { f with y1 := v }
  | .x2 => { f with x2 := v }
  | .y2 => { f with y2 := v }
  | .k => { f with k := v }
  | .x3 => { f with x3 := v }
  | .y3 => { f with y3 := v }

/-- The offset of the register's 0x80-byte window (10_state R20). -/
def Reg.window : Reg → Nat
  | .a => 0x100
  | .b => 0x180
  | .p => 0x200
  | .x1 => 0x280
  | .y1 => 0x300
  | .x2 => 0x380
  | .y2 => 0x400
  | .k => 0x480
  | .x3 => 0x500
  | .y3 => 0x580

/-- The ten operand registers, in the order of the map (10_state R20). -/
def Reg.all : List Reg := [.a, .b, .p, .x1, .y1, .x2, .y2, .k, .x3, .y3]

/-- Whether the bus can write the register: X3 and Y3 are read-only (10_state R24). -/
def Reg.busWritable : Reg → Bool
  | .x3 => false
  | .y3 => false
  | .a => true
  | .b => true
  | .p => true
  | .x1 => true
  | .y1 => true
  | .x2 => true
  | .y2 => true
  | .k => true

/-- The low `w` bits of `v`, the others 0: no register holds a value at or above 2^W (10_state R22). -/
def lowBits (w : Nat) (v : Operand) : Operand := (v.setWidth w).setWidth 1024

/-- Bits [32j+31 : 32j] (10_state R21). -/
def wordOf (v : Operand) (j : Nat) : Word := v.extractLsb' (32 * j) 32

/-- `v` with bits [32j+31 : 32j] replaced by `d` (20_memory R65). -/
def withWord (v : Operand) (j : Nat) (d : Word) : Operand :=
  (v &&& ~~~((BitVec.allOnes 32).setWidth 1024 <<< (32 * j))) ||| (d.setWidth 1024 <<< (32 * j))

/-- What a bus read of word `j` of a register holding `v` gives: bits at or above W read as 0 (10_state R22), words at or
above NW read as 0 (R23). -/
def operandWord (c : Config) (v : Operand) (j : Nat) : Word :=
  if j < c.nw then wordOf (lowBits c.w v) j else 0

/-- What a register holding `v` holds after a bus write of word `j`, for j < NW: masked to W bits (10_state R22,
20_memory R65). -/
def operandWithWord (c : Config) (v : Operand) (j : Nat) (d : Word) : Operand :=
  lowBits c.w (withWord v j d)

/-- A point from its INF bit and coordinate registers (10_state R30, 30_encoding R87): with INF = 1 the coordinates are
not read. -/
def pointOf (inf : Bool) (x y : Operand) : Pt := if inf then .identity else .affine x.toNat y.toNat

/-- Operand point P1 (10_state R30). -/
def State.p1 (s : State) : Pt := pointOf s.inf1 s.regs.x1 s.regs.y1

/-- Operand point P2 (10_state R30). -/
def State.p2 (s : State) : Pt := pointOf s.inf2 s.regs.x2 s.regs.y2

/-- The result point R (10_state R30). -/
def State.resultPoint (s : State) : Pt := pointOf s.rInf s.regs.x3 s.regs.y3

/-- The scalar n: sign and magnitude, no sign extension (10_state R32, 30_encoding R86). -/
def scalarOf (kneg : Bool) (k : Operand) : Int := if kneg then -(k.toNat : Int) else (k.toNat : Int)

/-- `Snapshot(op)`, built from the registers as they stand (10_state R43, 40_command_engine R100). -/
def State.snapshot (s : State) (op : BitVec 4) : Snapshot :=
  { op := op, a := s.regs.a, b := s.regs.b, p := s.regs.p, p1 := s.p1, p2 := s.p2
    x1 := s.regs.x1, kmag := s.regs.k, kneg := s.kneg }

/-- `InRange(Q)` (40_command_engine R102). -/
def Pt.inRange (p : Nat) : Pt → Bool
  | .identity => true
  | .affine x y => decide (x < p) && decide (y < p)

end Sys2Proof.Machine
end

