-- ==== Sys2Proof/Machine/Arith.lean ====
section
/-! DEFINITION. Field arithmetic: exact integers, normalised residues, the modular inverse (41_field_arithmetic). -/

namespace Sys2Proof.Machine

/-- `mod(v, m) = ((v % m) + m) % m` with the truncating remainder, in [0, m) for m > 0 (00_scope R10, 41 R110). The
engine calls it only for m ≥ 2 (40_command_engine R102, check 2). -/
def residue (v : Int) (m : Nat) : Nat := ((v.tmod m + m).tmod m).toNat

/-- `fadd(u, v) = mod(u + v, m)` (41 R111). -/
def fadd (m : Nat) (u v : Int) : Nat := residue (u + v) m

/-- `fsub(u, v) = mod(u − v, m)` (41 R111). -/
def fsub (m : Nat) (u v : Int) : Nat := residue (u - v) m

/-- `fmul(u, v) = mod(u · v, m)` (41 R111). -/
def fmul (m : Nat) (u v : Int) : Nat := residue (u * v) m

/-- `fneg(u) = mod(−u, m)` (41 R111). -/
def fneg (m : Nat) (u : Int) : Nat := residue (-u) m

/-- The `while r1 != 0` loop of 41 R112, answering (r0, t0). The first argument bounds the iterations; r1 falls at each
one, so the initial r1 is a bound that is never met (`Laws.euclid_done`). -/
def euclid : Nat → Nat → Nat → Int → Int → Nat × Int
  | 0, r0, _, t0, _ => (r0, t0)
  | fuel + 1, r0, r1, t0, t1 =>
    if r1 = 0 then (r0, t0)
    else euclid fuel r1 (r0 - r0 / r1 * r1) t1 (t0 - ↑(r0 / r1) * t1)

/-- `finv(a, m)`, the modular inverse by extended Euclid (41 R112); `none` is `raise NoInverse`. -/
def finv (a m : Nat) : Option Nat :=
  match euclid m m (residue a m) 0 1 with
  | (r0, t0) => if r0 = 1 then some (residue t0 m) else none

end Sys2Proof.Machine
end

