-- ==== Sys2Proof/Machine/Curve.lean ====
section
/-! DEFINITION. The operation functions on points (42_point_ops): membership, negation, the group law. -/

namespace Sys2Proof.Machine

/-- `pchk(Q)`: membership of y² = x³ + ax + b modulo p (42_point_ops R121). -/
def pchk (a b p : Nat) : Pt → Bool
  | .identity => true
  | .affine x y => residue ((y : Int) * y - x * x * x - a * x - b) p == 0

/-- `pneg(Q)` (42_point_ops R123). -/
def pneg (p : Nat) : Pt → Pt
  | .identity => .identity
  | .affine x y => .affine x (fneg p y)

/-- Numerator and denominator of the slope, the branch chosen by point equality (42_point_ops R126). -/
def slopeParts (a p x1 y1 x2 y2 : Nat) : Nat × Nat :=
  if x1 = x2 ∧ y1 = y2 then (residue (3 * x1 * x1 + a) p, residue (2 * y1) p)
  else (fsub p y2 y1, fsub p x2 x1)

/-- The result of 42_point_ops R128 for the slope `lam`. -/
def chord (p lam x1 y1 x2 : Nat) : Pt :=
  let x3 := residue ((lam : Int) * lam - x1 - x2) p
  .affine x3 (residue ((lam : Int) * ((x1 : Int) - x3) - y1) p)

/-- `padd(P, Q)`: identity operands (42_point_ops R125), slope (R126), denominator-zero policy and internal inverse failure,
which raises FATAL (R127), result (R128). -/
def padd (a p : Nat) : Pt → Pt → Except ErrCode Pt
  | .identity, q => .ok q
  | .affine x1 y1, .identity => .ok (.affine x1 y1)
  | .affine x1 y1, .affine x2 y2 =>
    match slopeParts a p x1 y1 x2 y2 with
    | (num, den) =>
      if den = 0 then .ok .identity
      else match finv den p with
        | none => .error .fatal
        | some i => .ok (chord p (fmul p num i) x1 y1 x2)

end Sys2Proof.Machine
end

