-- ==== Sys2Proof/Machine/Scalar.lean ====
section
/-! DEFINITION. Scalar multiplication: least significant bit first, double-and-add, with the trailing doubling
(43_scalar_multiply). -/

namespace Sys2Proof.Machine

/-- One iteration of the `while n > 0` loop (43 R140): the addition uses `temp` as it was before the iteration's doubling,
and the doubling is always done, in the last iteration too (R144). -/
def smulIter (a p : Nat) (w : SmulLoop) : Except ErrCode SmulLoop :=
  match (if w.n % 2 = 1 then padd a p w.result w.temp else .ok w.result) with
  | .error e => .error e
  | .ok r =>
    match padd a p w.temp w.temp with
    | .error e => .error e
    | .ok t => .ok { result := r, temp := t, n := w.n / 2 }

/-- The loop, for at most `fuel` iterations. -/
def smulLoopFuel (a p : Nat) : Nat → SmulLoop → Except ErrCode Pt
  | 0, w => .ok w.result
  | fuel + 1, w =>
    if w.n = 0 then .ok w.result
    else match smulIter a p w with
      | .error e => .error e
      | .ok w' => smulLoopFuel a p fuel w'

/-- The loop from the variables `w` to its end (43 R140, R143): `n` halves at each iteration, so `n` iterations are more
than it can run (`Laws.smulLoopFuel_enough`). -/
def smulLoop (a p : Nat) (w : SmulLoop) : Except ErrCode Pt := smulLoopFuel a p w.n w

/-- The loop variables at the start of `dbladd(P, n)` (43 R140). -/
def dbladdStart (q : Pt) (n : Nat) : SmulLoop := { result := .identity, temp := q, n := n }

/-- `dbladd(P, n)` (43 R140). -/
def dbladd (a p : Nat) (q : Pt) (n : Nat) : Except ErrCode Pt :=
  if n = 0 then .ok .identity else smulLoop a p (dbladdStart q n)

/-- `psmul(P, n)`, with the one-level redirection for negative scalars (43 R140, R142). -/
def psmul (a p : Nat) (q : Pt) (n : Int) : Except ErrCode Pt :=
  if n < 0 then dbladd a p (pneg p q) (-n).toNat else dbladd a p q n.toNat

/-- The loop variables with which `psmul(P, n)` starts (43 R140, R142). -/
def psmulStart (p : Nat) (q : Pt) (n : Int) : SmulLoop :=
  if n < 0 then dbladdStart (pneg p q) (-n).toNat else dbladdStart q n.toNat

/-- `k` iterations of a loop in progress (10_state R44). A finished loop stays; an iteration that raises leaves the
variables as they were, since the rest of the loop is not run (43 R140, log 5). -/
def smulAdvance (a p : Nat) : Nat → SmulLoop → SmulLoop
  | 0, w => w
  | k + 1, w =>
    if w.n = 0 then w
    else match smulIter a p w with
      | .error _ => w
      | .ok w' => smulAdvance a p k w'

end Sys2Proof.Machine
end

