-- ==== Sys2Proof/Machine/Commands.lean ====
section
/-! DEFINITION. `Execute(s)`: the check order (40_command_engine R102) and the operation function of each opcode (R104). -/

namespace Sys2Proof.Machine

/-- What a successful command commits (40_command_engine R103). -/
inductive Result where
  | point (r : Pt)
  | inverse (x : Nat)
  | onCurve (b : Bool)
  deriving DecidableEq, Repr

/-- The opcode of a command (30_encoding R82). -/
def Command.op : Command → BitVec 4
  | .add => 1
  | .dbl => 2
  | .neg => 3
  | .inv => 4
  | .smul => 5
  | .chk => 6

/-- The command an opcode names; none for the reserved ones (30_encoding R82, R83). -/
def Command.ofOp (op : BitVec 4) : Option Command :=
  if op = 1 then some .add
  else if op = 2 then some .dbl
  else if op = 3 then some .neg
  else if op = 4 then some .inv
  else if op = 5 then some .smul
  else if op = 6 then some .chk
  else none

/-- The commands whose P1 is range-checked (40_command_engine R102, check 3). -/
def Command.checksP1 : Command → Bool
  | .inv => false
  | .add => true
  | .dbl => true
  | .neg => true
  | .smul => true
  | .chk => true

/-- The command whose P2 is range-checked (40_command_engine R102, check 4). -/
def Command.checksP2 : Command → Bool
  | .add => true
  | .dbl => false
  | .neg => false
  | .inv => false
  | .smul => false
  | .chk => false

/-- The scalar of the snapshot (40_command_engine R104). -/
def Snapshot.n (sn : Snapshot) : Int := scalarOf sn.kneg sn.kmag

/-- A point-valued outcome as a result to commit. -/
def pointResult : Except ErrCode Pt → Except ErrCode Result
  | .ok r => .ok (.point r)
  | .error e => .error e

/-- ADD: `padd(P1, P2)` with a = A, p = P (42_point_ops R129). -/
def runAdd (sn : Snapshot) : Except ErrCode Result := pointResult (padd sn.a.toNat sn.p.toNat sn.p1 sn.p2)

/-- DBL: `padd(P1, P1)` (42_point_ops R130). -/
def runDbl (sn : Snapshot) : Except ErrCode Result := pointResult (padd sn.a.toNat sn.p.toNat sn.p1 sn.p1)

/-- NEG: `pneg(P1)` (42_point_ops R124). -/
def runNeg (sn : Snapshot) : Except ErrCode Result := .ok (.point (pneg sn.p.toNat sn.p1))

/-- INV: `finv(X1, P)`, NoInverse ends with ERR_NOINV (41_field_arithmetic R113, R115). -/
def runInv (sn : Snapshot) : Except ErrCode Result :=
  match finv sn.x1.toNat sn.p.toNat with
  | none => .error .noinv
  | some x => .ok (.inverse x)

/-- SMUL: `psmul(P1, n)` (43_scalar_multiply R141). -/
def runSmul (sn : Snapshot) : Except ErrCode Result := pointResult (psmul sn.a.toNat sn.p.toNat sn.p1 sn.n)

/-- CHK: `pchk(P1)` with a = A, b = B, p = P (42_point_ops R122). -/
def runChk (sn : Snapshot) : Except ErrCode Result := .ok (.onCurve (pchk sn.a.toNat sn.b.toNat sn.p.toNat sn.p1))

/-- The dispatch of 40_command_engine R104. -/
def runCommand (sn : Snapshot) : Command → Except ErrCode Result
  | .add => runAdd sn
  | .dbl => runDbl sn
  | .neg => runNeg sn
  | .inv => runInv sn
  | .smul => runSmul sn
  | .chk => runChk sn

/-- Checks 2 to 4 of 40_command_engine R102 for a valid opcode, in order: PARAM, RANGE of P1, RANGE of P2. -/
def checkOperands (sn : Snapshot) (c : Command) : ErrCode :=
  if sn.p.toNat < 2 then .param
  else if c.checksP1 && !sn.p1.inRange sn.p.toNat then .range
  else if c.checksP2 && !sn.p2.inRange sn.p.toNat then .range
  else .none

/-- `Execute(s)` (40_command_engine R102): the first check that fails decides the code, else the operation runs. -/
def execute (sn : Snapshot) : Except ErrCode Result :=
  match Command.ofOp sn.op with
  | none => .error .badop
  | some c => if checkOperands sn c = .none then runCommand sn c else .error (checkOperands sn c)

/-- The loop variables with which an accepted command starts: those of `psmul` for a SMUL that passes the checks, else
none (10_state R44). -/
def Snapshot.startWork (sn : Snapshot) : Option SmulLoop :=
  if Command.ofOp sn.op = some .smul ∧ checkOperands sn .smul = .none then some (psmulStart sn.p.toNat sn.p1 sn.n)
  else none

/-- The outcome at completion: the SMUL loop in progress run to its end, any other command executed from its snapshot
(40_command_engine R101, R104; 10_state R44). -/
def Running.outcome (r : Running) : Except ErrCode Result :=
  match r.work with
  | some w => pointResult (smulLoop r.snap.a.toNat r.snap.p.toNat w)
  | none => execute r.snap

end Sys2Proof.Machine
end

