-- ==== Sys2Proof/Machine/Flags.lean ====
section
/-! DEFINITION. The control and status words as the bus reads them (10_state R27 to R41), and the interrupt output. -/

namespace Sys2Proof.Machine

/-- The error code in STATUS.ERR (60_exceptions R150). -/
def ErrCode.code : ErrCode → BitVec 4
  | .none => 0
  | .badop => 1
  | .param => 2
  | .range => 3
  | .noinv => 4
  | .fatal => 5

/-- The engine is in state BUSY (10_state R42). -/
def Engine.isBusy : Engine → Bool
  | .idle => false
  | .busy _ => true

/-- STATUS.BUSY, 1 exactly while eng = BUSY (10_state R34). -/
def State.busy (s : State) : Bool := s.eng.isBusy

/-- The interrupt output: DONE AND DONE_IE, level-sensitive (10_state R41, 60_exceptions R161). -/
def State.irq (s : State) : Bool := s.done && s.doneIe

/-- ID, a constant (10_state R27). -/
def idWord : Word := 0xECC00100

/-- CFG = (8'h00, NW[7:0], W[15:0]), a constant of the machine (10_state R28). -/
def cfgWord (c : Config) : Word := 0#8 ++ BitVec.ofNat 8 c.nw ++ BitVec.ofNat 16 c.w

/-- A read of CTRL: (24'b0, OP, 4'b0), START and SRST read 0 (10_state R29). -/
def ctrlWord (s : State) : Word := 0#24 ++ s.ctrlOp ++ 0#4

/-- A read of STATUS (10_state R33): ERR in bits 11:8, then ONCURVE, FATAL, REJ, DONE, BUSY in bits 4 to 0. -/
def statusWord (s : State) : Word :=
  0#20 ++ s.err.code ++ 0#3 ++ BitVec.ofBool s.oncurve ++ BitVec.ofBool s.fatal ++ BitVec.ofBool s.rej ++
    BitVec.ofBool s.done ++ BitVec.ofBool s.busy

/-- A read of INTEN (10_state R40). -/
def intenWord (s : State) : Word := 0#31 ++ BitVec.ofBool s.doneIe

/-- A read of PTFLAGS (10_state R31): R_INF in bit 8, then KNEG, INF2, INF1 in bits 2 to 0. -/
def ptflagsWord (s : State) : Word :=
  0#23 ++ BitVec.ofBool s.rInf ++ 0#5 ++ BitVec.ofBool s.kneg ++ BitVec.ofBool s.inf2 ++ BitVec.ofBool s.inf1

/-- A write of STATUS: DONE and REJ are write-1-to-clear, every other bit is ignored (10_state R33, 20_memory R65). -/
def State.writeStatus (s : State) (d : Word) : State :=
  { s with done := s.done && !d.getLsbD 1, rej := s.rej && !d.getLsbD 2 }

/-- A write of INTEN (10_state R40, 20_memory R65). -/
def State.writeInten (s : State) (d : Word) : State := { s with doneIe := d.getLsbD 0 }

/-- A write of PTFLAGS: R_INF is read-only (10_state R31, 20_memory R65). -/
def State.writePtflags (s : State) (d : Word) : State :=
  { s with inf1 := d.getLsbD 0, inf2 := d.getLsbD 1, kneg := d.getLsbD 2 }

end Sys2Proof.Machine
end

