-- ==== Sys2Proof/Machine/Ops.lean ====
section
/-! DEFINITION. The shared operations: acceptance and rejection (40_command_engine R99), the engine's tick, commit and
completion (R101, R103), reporting an error (60_exceptions R150, R155) and the reset (10_state R52, 70 R170, R171).
ECC-CORE has no trap: an error is reported in STATUS and nothing is saved or transferred (60 R162), and there is no return
from one (R163). -/

namespace Sys2Proof.Machine

/-- A request is accepted when the engine is idle and FATAL is 0 (40_command_engine R99). -/
def State.canAccept (s : State) : Bool := !s.busy && !s.fatal

/-- Acceptance of the command with opcode `op` (40_command_engine R99, R100). -/
def State.accept (s : State) (op : BitVec 4) : State :=
  { s with
    ctrlOp := op, done := false, err := .none
    eng := .busy
      { snap := s.snapshot op, work := (s.snapshot op).startWork
        latLeft := Config.latency s.cfg s.draws (s.snapshot op) }
    draws := s.draws + 1 }

/-- A request that is not accepted sets REJ; CTRL.OP is stored all the same (40_command_engine R99, 10_state R29, log 16). -/
def State.reject (s : State) (op : BitVec 4) : State := { s with ctrlOp := op, rej := true }

/-- A command request (40_command_engine R99). -/
def State.request (s : State) (op : BitVec 4) : State := if s.canAccept then s.accept op else s.reject op

/-- One engine tick before the completion event: only hidden state moves (10_state R44, logs 2 and 5). -/
def State.tick (s : State) : State :=
  match s.eng with
  | .idle => s
  | .busy r =>
    { s with
      eng := .busy
        { r with
          work := r.work.map (smulAdvance r.snap.a.toNat r.snap.p.toNat (Config.smulPace s.cfg s.draws r.snap))
          latLeft := r.latLeft - 1 }
      draws := s.draws + 1 }

/-- Write a point to the result registers (10_state R49). -/
def State.commitPoint (s : State) : Pt → State
  | .identity => { s with rInf := true, regs := (s.regs.set .x3 0).set .y3 0 }
  | .affine x y =>
    { s with rInf := false, regs := (s.regs.set .x3 (BitVec.ofNat 1024 x)).set .y3 (BitVec.ofNat 1024 y) }

/-- `Commit(op, res)` (40_command_engine R103, 10_state R48, R49). -/
def State.commit (s : State) : Result → State
  | .point r => s.commitPoint r
  | .inverse x => { s with rInf := false, regs := (s.regs.set .x3 (BitVec.ofNat 1024 x)).set .y3 0 }
  | .onCurve b => { s with oncurve := b }

/-- Report the error `e` of a command: the code, and FATAL for ERR_FATAL (40_command_engine R101, 60_exceptions R155).
Nothing else is recorded and nothing is committed (10_state R50). -/
def State.reportError (s : State) (e : ErrCode) : State := { s with err := e, fatal := s.fatal || decide (e = .fatal) }

/-- The end of every completion: DONE <- 1, BUSY <- 0 (40_command_engine R101). -/
def State.finish (s : State) : State := { s with done := true, eng := .idle }

/-- What the outcome of a command does to the state (40_command_engine R101). -/
def State.complete (s : State) : Except ErrCode Result → State
  | .ok res => ((s.commit res).reportError .none).finish
  | .error e => (s.reportError e).finish

/-- The engine's completion event, one atomic event, enabled exactly when the engine is busy (40_command_engine R101). -/
def State.engineComplete (s : State) : State :=
  match s.eng with
  | .idle => s
  | .busy r => s.complete r.outcome

/-- Every register, field and `eng` at its value of 10_state R52; a command in flight is abandoned (70 R171, R172). The
parameters, the level of rst_n and the host's side are no state of R52. -/
def State.resetCore (s : State) : State :=
  { State.resetOf s.cfg with rstN := s.rstN, inbox := s.inbox, resp := s.resp, draws := s.draws }

end Sys2Proof.Machine
end

