-- ==== Sys2Proof/Machine/ControlInstr.lean ====
section
/-! DEFINITION. The CTRL writes beside the six commands: BADOP, SRST, SETOP. -/

namespace Sys2Proof.Machine

/-- BADOP: accepted like any command; it completes with ERR_BADOP (40_command_engine R105, R99; 30_encoding R83). -/
def execBadop (op : BitVec 4) (s : State) : Host.Outcome State Fault Refusal := .next (s.request op)

/-- SRST: the effect of a hardware reset pulse on all state of 10_state R52 (70_reset_and_hazards R171). -/
def execSrst (s : State) : Host.Outcome State Fault Refusal := .next s.resetCore

/-- SETOP: nothing but CTRL.OP (30_encoding R85). -/
def execSetop (op : BitVec 4) (s : State) : Host.Outcome State Fault Refusal := .next { s with ctrlOp := op }

end Sys2Proof.Machine
end

