-- ==== Sys2Proof/Machine/FieldInstr.lean ====
section
/-! DEFINITION. The CTRL write that requests INV (41_field_arithmetic R113). -/

namespace Sys2Proof.Machine

/-- INV (41_field_arithmetic R113; 40_command_engine R99). -/
def execInv (s : State) : Host.Outcome State Fault Refusal := .next (s.request 4)

end Sys2Proof.Machine
end

