-- ==== Sys2Proof/Machine/PointInstr.lean ====
section
/-! DEFINITION. The CTRL writes that request a point command: ADD, DBL, NEG, CHK (42_point_ops). The write is the
acceptance, or the rejection while busy or fatal (40_command_engine R99); the command's result comes with the engine's
completion event (`State.engineComplete`). -/

namespace Sys2Proof.Machine

/-- ADD (42_point_ops R129; 40_command_engine R99). -/
def execAdd (s : State) : Host.Outcome State Fault Refusal := .next (s.request 1)

/-- DBL (42_point_ops R130; 40_command_engine R99). -/
def execDbl (s : State) : Host.Outcome State Fault Refusal := .next (s.request 2)

/-- NEG (42_point_ops R124; 40_command_engine R99). -/
def execNeg (s : State) : Host.Outcome State Fault Refusal := .next (s.request 3)

/-- CHK (42_point_ops R122; 40_command_engine R99). -/
def execChk (s : State) : Host.Outcome State Fault Refusal := .next (s.request 6)

end Sys2Proof.Machine
end

