-- ==== Sys2Proof/Machine/ScalarInstr.lean ====
section
/-! DEFINITION. The CTRL write that requests SMUL (43_scalar_multiply R141). -/

namespace Sys2Proof.Machine

/-- SMUL (43_scalar_multiply R141; 40_command_engine R99). -/
def execSmul (s : State) : Host.Outcome State Fault Refusal := .next (s.request 5)

end Sys2Proof.Machine
end

