-- ==== Sys2Proof/Machine/Dispatch.lean ====
section
/-! DEFINITION. One arm per instruction: the effect of the CTRL write that carries it. -/

namespace Sys2Proof.Machine

def exec (i : Instr) (s : State) : Host.Outcome State Fault Refusal :=
  match i with
  | .add => Sys2Proof.Machine.execAdd s
  | .dbl => Sys2Proof.Machine.execDbl s
  | .neg => Sys2Proof.Machine.execNeg s
  | .inv => Sys2Proof.Machine.execInv s
  | .smul => Sys2Proof.Machine.execSmul s
  | .chk => Sys2Proof.Machine.execChk s
  | .badop op => Sys2Proof.Machine.execBadop op s
  | .srst => Sys2Proof.Machine.execSrst s
  | .setop op => Sys2Proof.Machine.execSetop op s

end Sys2Proof.Machine
end

