-- ==== Sys2Proof/Machine/Bus.lean ====
section
/-! DEFINITION. The register bus (20_memory): the map, reads, writes, the host's turn and the reset input. -/

namespace Sys2Proof.Machine

/-- What stands at an aligned offset (10_state R20). -/
inductive Loc where
  | id | cfg | ctrl | status | inten | ptflags
  /-- Word `j` of an operand register's window. -/
  | word (r : Reg) (j : Nat)
  | reserved
  deriving DecidableEq, Repr

/-- The operand window an offset lies in: 0x80 bytes from the register's offset (10_state R20, R21). -/
def Reg.atOffset (off : Nat) : Option Reg :=
  Reg.all.find? fun r => decide (r.window ≤ off) && decide (off < r.window + 0x80)

/-- The register map (10_state R20), for an aligned offset. -/
def locate (off : Offset) : Loc :=
  if off = 0x000 then .id
  else if off = 0x004 then .cfg
  else if off = 0x008 then .ctrl
  else if off = 0x00C then .status
  else if off = 0x010 then .inten
  else if off = 0x014 then .ptflags
  else match Reg.atOffset off.toNat with
    | some r => .word r ((off.toNat - r.window) / 4)
    | none => .reserved

/-- The register word at an aligned offset (20_memory R62); reserved offsets read as zero (10_state R20). -/
def State.readLoc (s : State) : Loc → Word
  | .id => idWord
  | .cfg => cfgWord s.cfg
  | .ctrl => ctrlWord s
  | .status => statusWord s
  | .inten => intenWord s
  | .ptflags => ptflagsWord s
  | .word r j => operandWord s.cfg (s.regs.get r) j
  | .reserved => 0

/-- The effect of a full write on everything but CTRL (20_memory R65): read-only and reserved locations, and words at or
above NW, ignore it. -/
def State.writeLoc (s : State) (l : Loc) (d : Word) : State :=
  match l with
  | .id => s
  | .cfg => s
  | .ctrl => s
  | .status => s.writeStatus d
  | .inten => s.writeInten d
  | .ptflags => s.writePtflags d
  | .word r j =>
    if r.busWritable = true ∧ j < s.cfg.nw then
      { s with regs := s.regs.set r (operandWithWord s.cfg (s.regs.get r) j d) }
    else s
  | .reserved => s

/-- off[1:0] = 0b00 (20_memory R63). -/
def aligned (off : Offset) : Bool := off.extractLsb' 0 2 == 0#2

/-- `BusRead(off)`: data and error response (20_memory R62, R63). It has no effect on any state. -/
def State.busRead (s : State) (off : Offset) : Word × Bool :=
  if aligned off then (s.readLoc (locate off), false) else (0, true)

/-- The response of a transaction reaches the host (20_memory R61, log 8). -/
def State.respond (s : State) (r : BusResp) : State := { s with resp := r :: s.resp }

/-- The response to a write that the machine performed, after its effect; a stop stays a stop. -/
def respondOk : Host.Outcome State Fault Refusal → Host.Outcome State Fault Refusal
  | .next t => .next (t.respond (.write false))
  | .fault f => .fault f
  | .refused r => .refused r

/-- `BusWrite(off, data, strb)` (20_memory R63 to R65): a misaligned or partial-strobe write has no effect and err = 1; a
write of CTRL runs the instruction its data decodes to (30_encoding R81). -/
def State.busWrite (s : State) (off : Offset) (d : Word) (strb : BitVec 4) : Host.Outcome State Fault Refusal :=
  if aligned off = true ∧ strb = 0b1111 then
    if locate off = .ctrl then respondOk (exec (decodeWord d) s)
    else .next ((s.writeLoc (locate off) d).respond (.write false))
  else .next (s.respond (.write true))

/-- The offset of a bus address in the window at BASE, if it lies there (20_memory R60, 40_command_engine R107). -/
def windowOffset (c : Config) (addr : Nat) : Option Offset :=
  if c.base ≤ addr ∧ addr < c.base + 0x1000 then some (BitVec.ofNat 12 (addr - c.base)) else none

/-- One host action, with rst_n deasserted. `wait` reads STATUS once and stays pending while DONE = 0 (30_encoding R96). -/
def State.perform (s : State) : HostItem → Host.Outcome State Fault Refusal
  | .read addr =>
    match windowOffset s.cfg addr with
    | none => .fault (.outsideWindow addr)
    | some off => .next (s.respond (.read (s.busRead off).1 (s.busRead off).2))
  | .write addr d strb =>
    match windowOffset s.cfg addr with
    | none => .fault (.outsideWindow addr)
    | some off => s.busWrite off d strb
  | .wait =>
    let t := s.respond (.read (s.busRead 0x00C).1 (s.busRead 0x00C).2)
    .next (if s.done then t else { t with inbox := .wait :: t.inbox })
  | .rst level => .next (if level then s else { s.resetCore with rstN := false })

/-- The host's turn: its oldest pending action; with none pending the core waits (70 R170). -/
def State.hostTurn (s : State) : Host.Outcome State Fault Refusal :=
  match s.inbox with
  | [] => .next s
  | item :: rest => State.perform { s with inbox := rest } item

/-- One step with rst_n deasserted (20_memory R70, R73): the completion event when the draw has run out, wholly between
two transactions; else one engine tick and the host's turn. -/
def State.running (s : State) : Host.Outcome State Fault Refusal :=
  match s.eng with
  | .idle => s.hostTurn
  | .busy r => if r.latLeft = 0 then .next s.engineComplete else s.tick.hostTurn

/-- One step with rst_n asserted: every piece of state is held at its reset value, and a transaction is refused (70 R170,
93 I6). -/
def State.heldInReset (s : State) : Host.Outcome State Fault Refusal :=
  match s.inbox with
  | [] => .next s.resetCore
  | .rst level :: rest => .next { s.resetCore with rstN := level, inbox := rest }
  | .read _ :: _ => .refused .transactionDuringReset
  | .write _ _ _ :: _ => .refused .transactionDuringReset
  | .wait :: _ => .refused .transactionDuringReset

/-- The host action that carries a CTRL word: a full-strobe write at BASE + 0x008 (30_encoding R80). -/
def ctrlWrite (c : Config) (d : Word) : HostItem := .write (c.base + 0x008) d 0b1111

/-- Put the completion event off by one tick, so that the host's turn comes first; an idle engine is unchanged (log 3). -/
def Engine.delay : Engine → Engine
  | .idle => .idle
  | .busy r => .busy { r with latLeft := r.latLeft + 1 }

/-- The CTRL word `d` as the host's next action, rst_n deasserted, the completion event not before it (log 3). -/
def State.withCtrlWrite (s : State) (d : Word) : State :=
  { s with rstN := true, eng := s.eng.delay, inbox := ctrlWrite s.cfg d :: s.inbox }

end Sys2Proof.Machine
end

