-- ==== Sys2Proof/Machine/Step.lean ====
section
/-! DEFINITION. One step of the machine, and the next instruction put in place. -/

namespace Sys2Proof.Machine

/-- One step: one event of the total order of 20_memory R73, or one engine tick with no host action pending. -/
def step (s : State) : Host.Outcome State Fault Refusal :=
  if s.rstN then s.running else s.heldInReset

/-- `s` with the CTRL word whose table bits are `w` as the host's next action, so that `step` runs exactly it (log 3). -/
def State.withFetchWord (s : State) (nbits w : Nat) : State := s.withCtrlWrite (tableWord nbits w)

end Sys2Proof.Machine
end

