-- ==== Sys2Proof/Machine/HostNotation.lean ====
section
/-! DEFINITION. The host notation of 30_encoding R92 to R96 as lists of host actions, and the scheme sequences of R97 as
programs of a host that reads what its transactions answer. -/

namespace Sys2Proof.Machine

/-- `wr OFF, DATA` (30_encoding R92). -/
def hostWr (c : Config) (off : Nat) (d : Word) : HostItem := .write (c.base + off) d 0b1111

/-- `rd OFF` (30_encoding R92). -/
def hostRd (c : Config) (off : Nat) : HostItem := .read (c.base + off)

/-- `ld REG, VALUE`: NW writes in increasing j (30_encoding R93). -/
def hostLd (c : Config) (r : Reg) (v : Nat) : List HostItem :=
  (List.range c.nw).map fun j => hostWr c (r.window + 4 * j) (BitVec.ofNat 32 (v / 2 ^ (32 * j)))

/-- `rd REG`: its NW words in increasing j. -/
def hostRdReg (c : Config) (r : Reg) : List HostItem :=
  (List.range c.nw).map fun j => hostRd c (r.window + 4 * j)

/-- `flags i1, i2, kn` (30_encoding R94). -/
def hostFlags (c : Config) (i1 i2 kn : Bool) : HostItem :=
  hostWr c 0x014 (0#29 ++ BitVec.ofBool kn ++ BitVec.ofBool i2 ++ BitVec.ofBool i1)

/-- `cmd NAME` (30_encoding R95). -/
def hostCmd (c : Config) (k : Command) : HostItem := hostWr c 0x008 ((k.op.setWidth 32 <<< 4) ||| 1)

/-- `srst` (30_encoding R95). -/
def hostSrst (c : Config) : HostItem := hostWr c 0x008 0x00000002

/-- `ack`, which clears DONE and REJ (30_encoding R95). -/
def hostAck (c : Config) : HostItem := hostWr c 0x00C 0x00000006

/-- The loads of a point operand into its coordinate registers; nothing for Identity, whose tag is in PTFLAGS. -/
def hostLdPoint (c : Config) (rx ry : Reg) : Pt → List HostItem
  | .identity => []
  | .affine x y => hostLd c rx x ++ hostLd c ry y

/-- Whether a point's INF flag is set (10_state R30). -/
def Pt.inf : Pt → Bool
  | .identity => true
  | .affine _ _ => false

/-- One step of a scheme sequence up to its `wait`: `ld`/`flags` of its operands, and of no other register, then `cmd`
(30_encoding R97). A command without a second point or a scalar loads neither; its flags are INF2 = 1 and KNEG = 0, as in
95_test_vectors L3-1. -/
def hostStep (c : Config) (k : Command) (q1 : Pt) (q2 : Option Pt) (n : Option Int) : List HostItem :=
  hostLdPoint c .x1 .y1 q1 ++ hostLdPoint c .x2 .y2 (q2.getD .identity) ++
    (n.map fun m => hostLd c .k m.natAbs).getD [] ++
    [hostFlags c q1.inf (q2.getD .identity).inf (decide (n.getD 0 < 0)), hostCmd c k, .wait]

/-- The reads of a result point: PTFLAGS for R_INF, then X3 and Y3 (30_encoding R97). -/
def hostRdResult (c : Config) : List HostItem := hostRd c 0x014 :: (hostRdReg c .x3 ++ hostRdReg c .y3)

/-- The data of a response; a write has none. -/
def BusResp.data : BusResp → Word
  | .read d _ => d
  | .write _ => 0

/-- The value of the words of a register, least significant first (20_memory R67). -/
def wordsValue (ws : List Word) : Nat := ws.foldr (fun d v => d.toNat + 2 ^ 32 * v) 0

/-- The point the host reads with `hostRdResult`, from the responses, newest first (10_state R30). -/
def resultRead (c : Config) (resp : List BusResp) : Pt :=
  let ds := resp.map BusResp.data
  if ((ds.drop (2 * c.nw)).headD 0).getLsbD 8 then .identity
  else .affine (wordsValue ((ds.drop c.nw).take c.nw).reverse) (wordsValue (ds.take c.nw).reverse)

/-- The STATUS word of the read that ended `wait`, from the responses, newest first (30_encoding R96). -/
def statusRead (resp : List BusResp) : Word := (resp.map BusResp.data).headD 0

/-- What a host does: it reports `a` and is done, or it issues actions and goes on with what their transactions answered,
newest first. Its control flow belongs to the host, not to ECC-CORE (30_encoding R96). -/
inductive HostProg (α : Type) where
  | report (a : α)
  | issue (items : List HostItem) (next : List BusResp → HostProg α)

/-- What a scheme host reports instead of a result: the errors of the scheme, which ECC-CORE does not know
(60_exceptions R158), or a command that failed. -/
inductive SchemeError where
  /-- CHK of the base point answered ONCURVE = 0 (30_encoding R97). -/
  | invalidBasePoint
  /-- CHK of the message point answered ONCURVE = 0 (30_encoding R97). -/
  | invalidMessagePoint
  /-- A command of the sequence ended with this STATUS.ERR, not 0. DESIGN CHOICE (log 20): the spec names no such report. -/
  | commandFailed (err : BitVec 4)
  deriving DecidableEq, Repr

/-- One step of a sequence up to its STATUS, which `next` is given when ERR = 0: the host reads a result, ONCURVE included,
in no other case (70_reset_and_hazards R174 step 5, R179). With ERR other than 0 the host gives the sequence up and reports
the code: DESIGN CHOICE (log 20), since 30_encoding R97 has no branch for it. -/
def hostCommand {α : Type} (c : Config) (k : Command) (q1 : Pt) (q2 : Option Pt) (n : Option Int)
    (next : Word → HostProg (Except SchemeError α)) : HostProg (Except SchemeError α) :=
  .issue (hostStep c k q1 q2 n) fun resp =>
    let err := (statusRead resp).extractLsb' 8 4
    if err = 0 then next (statusRead resp) else .report (.error (.commandFailed err))

/-- A step with a point result: the command, then, if it succeeded, the reads of its result (30_encoding R97). What happens
with ERR other than 0 is `hostCommand`'s choice (log 20). -/
def hostPoint {α : Type} (c : Config) (k : Command) (q1 : Pt) (q2 : Option Pt) (n : Option Int)
    (next : Pt → HostProg (Except SchemeError α)) : HostProg (Except SchemeError α) :=
  hostCommand c k q1 q2 n fun _ => .issue (hostRdResult c) fun resp => next (resultRead c resp)

/-- CHK of `q` and, if it succeeded, the host's branch on ONCURVE (30_encoding R97). What happens with ERR other than 0 is
`hostCommand`'s choice (log 20). -/
def hostCheck {α : Type} (c : Config) (q : Pt) (e : SchemeError) (next : HostProg (Except SchemeError α)) :
    HostProg (Except SchemeError α) :=
  hostCommand c .chk q none none fun status => if status.getLsbD 4 then next else .report (.error e)

/-- `keygen G, d`: the public key, or InvalidBasePointError (30_encoding R97). -/
def hostKeygen (c : Config) (g : Pt) (d : Nat) : HostProg (Except SchemeError Pt) :=
  hostCheck c g .invalidBasePoint (hostPoint c .smul g none (some d) fun r => .report (.ok r))

/-- `encrypt G, Pub, M, k`: the pair (C1, C2), or InvalidMessagePointError (30_encoding R97). -/
def hostEncrypt (c : Config) (g pub m : Pt) (k : Nat) : HostProg (Except SchemeError (Pt × Pt)) :=
  hostCheck c m .invalidMessagePoint
    (hostPoint c .smul g none (some k) fun c1 =>
      hostPoint c .smul pub none (some k) fun t =>
        hostPoint c .add m (some t) none fun c2 => .report (.ok (c1, c2)))

/-- `decrypt d, C1, C2` (30_encoding R97). -/
def hostDecrypt (c : Config) (d : Nat) (c1 c2 : Pt) : HostProg (Except SchemeError Pt) :=
  hostPoint c .smul c1 none (some d) fun s =>
    hostPoint c .neg s none none fun n => hostPoint c .add c2 (some n) none fun m => .report (.ok m)

/-- `sub Q1, Q2` (30_encoding R97). -/
def hostSub (c : Config) (q1 q2 : Pt) : HostProg (Except SchemeError Pt) :=
  hostPoint c .neg q2 none none fun n => hostPoint c .add q1 (some n) none fun r => .report (.ok r)

/-- The machine runs until the host's actions are all performed; none if it stops, or needs more than `fuel` steps. -/
def serve : Nat → State → Option State
  | 0, s => if s.inbox = [] then some s else none
  | fuel + 1, s =>
    if s.inbox = [] then some s
    else match step s with
      | .next t => serve fuel t
      | .fault _ => none
      | .refused _ => none

/-- The host program `prog` on the machine: each batch of actions is performed, with at most `fuel` steps, and the program
goes on with the responses to it. -/
def HostProg.drive {α : Type} (fuel : Nat) : HostProg α → State → Option (α × State)
  | .report a, s => some (a, s)
  | .issue items next, s =>
    match serve fuel { s with inbox := items } with
    | none => none
    | some t => (next (t.resp.take (t.resp.length - s.resp.length))).drive fuel t

end Sys2Proof.Machine
end

