-- ==== Sys2Proof/Safety.lean ====
section
/-! DEFINITION. What claims call a good state and a safe run: the machine's invariant, and the host's side of the
contract under which no step stops. -/

namespace Sys2Proof.Machine

/-- Every operand register holds a value below 2^W (10_state R22). -/
def RegFile.fits (f : RegFile) (w : Nat) : Prop := ∀ r : Reg, (f.get r).toNat < 2 ^ w

/-- Coordinates below 2^W. -/
def Pt.fits (w : Nat) : Pt → Prop
  | .identity => True
  | .affine x y => x < 2 ^ w ∧ y < 2 ^ w

/-- A snapshot of registers that hold values below 2^W (10_state R43). -/
def Snapshot.fits (sn : Snapshot) (w : Nat) : Prop :=
  sn.a.toNat < 2 ^ w ∧ sn.b.toNat < 2 ^ w ∧ sn.p.toNat < 2 ^ w ∧ sn.x1.toNat < 2 ^ w ∧ sn.kmag.toNat < 2 ^ w ∧
    sn.p1.fits w ∧ sn.p2.fits w

/-- What every state of a run satisfies. -/
structure State.Inv (s : State) : Prop where
  /-- 00_scope R5, R6. -/
  legal : s.cfg.wf = true
  /-- 10_state R22. -/
  regsFit : s.regs.fits s.cfg.w
  /-- 10_state R43 with R22. -/
  snapFits : ∀ r, s.eng = .busy r → r.snap.fits s.cfg.w
  /-- 70_reset_and_hazards R178, and no command runs while FATAL (10_state R37). -/
  busyQuiet : s.busy = true → s.done = false ∧ s.err = .none ∧ s.fatal = false
  /-- 10_state R37: FATAL goes with the error code 5. -/
  fatalCode : s.fatal = true ↔ s.err = .fatal
  /-- 10_state R49: an Identity result has X3 = Y3 = 0. -/
  identityZero : s.rInf = true → s.regs.x3 = 0 ∧ s.regs.y3 = 0
  /-- 40_command_engine R104: the outcome is a function of the snapshot alone, wherever the loop of R44 stands. -/
  outcomeFixed : ∀ r, s.eng = .busy r → r.outcome = execute r.snap
  /-- 70_reset_and_hazards R170: while rst_n is asserted every piece of state holds its reset value. -/
  heldInReset : s.rstN = false → s = s.resetCore

/-- An address of the window [BASE, BASE + 0xFFF] (20_memory R60). -/
def inWindow (c : Config) (addr : Nat) : Bool := decide (c.base ≤ addr) && decide (addr < c.base + 0x1000)

/-- The host's pending actions keep the contract: transactions lie in the window (20_memory R60), and none is issued while
rst_n is asserted (70_reset_and_hazards R170). `level` is the level of rst_n before the first action. -/
def hostKeepsContract (c : Config) : Bool → List HostItem → Bool
  | _, [] => true
  | _, .rst level :: rest => hostKeepsContract c level rest
  | level, .read addr :: rest => level && inWindow c addr && hostKeepsContract c level rest
  | level, .write addr _ _ :: rest => level && inWindow c addr && hostKeepsContract c level rest
  | level, .wait :: rest => level && hostKeepsContract c level rest

/-- A state from which the host keeps the contract. -/
def State.contract (s : State) : Bool := hostKeepsContract s.cfg s.rstN s.inbox

/-- The opcode of an instruction that requests a command (30_encoding R81, R82); none for SRST and SETOP. -/
def requestOp : Instr → Option (BitVec 4)
  | .add => some 1
  | .dbl => some 2
  | .neg => some 3
  | .inv => some 4
  | .smul => some 5
  | .chk => some 6
  | .badop op => some op
  | .srst => none
  | .setop _ => none

/-- A step that does not stop. -/
def State.stepsOn (s : State) : Prop := ∃ t, step s = .next t

end Sys2Proof.Machine
end

