-- ==== Sys2Proof/Certificates/Slice0/Obligations.lean ====
section
/-! DEFINITION. The statements for the provers, and the end states they name. -/

open Sys2Proof Sys2Proof.Machine

namespace Sys2Proof.Expect

/-- `s`, idle and not fatal, after a command requested with `op` has been accepted and has completed with the error `e`:
nothing but CTRL.OP, DONE, ERR and FATAL has changed (40_command_engine R99, R101; 10_state R50), and one draw is gone. -/
def failed (s : State) (op : BitVec 4) (e : ErrCode) : State :=
  { s with ctrlOp := op, done := true, err := e, fatal := decide (e = .fatal), draws := s.draws + 1 }

/-- The same for success, before the results are written: ERR_NONE. -/
def succeeded (s : State) (op : BitVec 4) : State :=
  { s with ctrlOp := op, done := true, err := .none, draws := s.draws + 1 }

/-- Success with the point result `q` (10_state R49). -/
def pointCommitted (s : State) (op : BitVec 4) : Pt → State
  | .identity => { succeeded s op with rInf := true, regs := { s.regs with x3 := 0, y3 := 0 } }
  | .affine x y =>
    { succeeded s op with
      rInf := false, regs := { s.regs with x3 := BitVec.ofNat 1024 x, y3 := BitVec.ofNat 1024 y } }

/-- The end state of a point command whose operation function answers `o`. -/
def pointOutcome (s : State) (op : BitVec 4) : Except ErrCode Pt → State
  | .ok q => pointCommitted s op q
  | .error e => failed s op e

/-- The CTRL write of `i` is accepted at `s`, and the engine's completion event then leaves `u`. -/
def completes (i : Instr) (s u : State) : Prop :=
  ∃ t, exec i s = .next t ∧ t.busy = true ∧ t.engineComplete = u

/-- `s` with every register, field and `eng` at its value of 10_state R52, written out. -/
def resetValues (s : State) : State :=
  { s with
    ctrlOp := 0, done := false, rej := false, fatal := false, oncurve := false, err := .none, doneIe := false
    inf1 := false, inf2 := false, kneg := false, rInf := false
    regs := { a := 0, b := 0, p := 0, x1 := 0, y1 := 0, x2 := 0, y2 := 0, k := 0, x3 := 0, y3 := 0 }
    eng := .idle }

/-- The snapshot of 10_state R43, written out from the registers of `s`. -/
def snapshotOf (s : State) (op : BitVec 4) : Snapshot :=
  { op := op, a := s.regs.a, b := s.regs.b, p := s.regs.p
    p1 := if s.inf1 then .identity else .affine s.regs.x1.toNat s.regs.y1.toNat
    p2 := if s.inf2 then .identity else .affine s.regs.x2.toNat s.regs.y2.toNat
    x1 := s.regs.x1, kmag := s.regs.k, kneg := s.kneg }

/-- No completion event is due: the host's turn comes in the next step. -/
def hostNext (s : State) : Prop := s.rstN = true ∧ ∀ r, s.eng = .busy r → r.latLeft ≠ 0

/-- The host action is a reset: rst_n asserted, or a full-strobe write of CTRL with SRST set. -/
def isReset (c : Config) : HostItem → Bool
  | .rst level => !level
  | .write addr d strb => addr == c.base + 8 && d.getLsbD 1 && strb == 0b1111
  | .read _ => false
  | .wait => false

/-- The opcode table's rows in the order a decoder applies them (30_encoding R91). -/
def rows (d : Word) : List (Word × Word × Instr) :=
  [(0x00000002, 0x00000002, .srst), (0x000000F3, 0x00000011, .add), (0x000000F3, 0x00000021, .dbl),
    (0x000000F3, 0x00000031, .neg), (0x000000F3, 0x00000041, .inv), (0x000000F3, 0x00000051, .smul),
    (0x000000F3, 0x00000061, .chk), (0x00000003, 0x00000001, .badop (d.extractLsb' 4 4)),
    (0x00000003, 0x00000000, .setop (d.extractLsb' 4 4))]

/-- The curve y² = x³ + ax + b modulo p holds at the point (42_point_ops R121). -/
def onCurve (a b p : Nat) : Pt → Prop
  | .identity => True
  | .affine x y => ((y : Int) * y - x * x * x - a * x - b) % p = 0

/-- The point doubled `k` times, or the error of the first doubling that raises one. -/
def doublings (a p : Nat) (q : Pt) : Nat → Except ErrCode Pt
  | 0 => .ok q
  | k + 1 =>
    match doublings a p q k with
    | .ok t => padd a p t t
    | .error e => .error e

/-- The sum of the doublings of `q` at the bits of `n` that are set, of the `k` lowest, taken from the lowest up, or the error
of the first call that raises one (43_scalar_multiply R140). -/
def partialSum (a p : Nat) (q : Pt) (n : Nat) : Nat → Except ErrCode Pt
  | 0 => .ok .identity
  | k + 1 =>
    match partialSum a p q n k, doublings a p q k with
    | .ok r, .ok t => if n.testBit k then padd a p r t else .ok r
    | .ok _, .error e => .error e
    | .error e, _ => .error e

/-- The results: X3, Y3, R_INF and ONCURVE. -/
def results (s : State) : Operand × Operand × Bool × Bool := (s.regs.x3, s.regs.y3, s.rInf, s.oncurve)

/-- The results of `s` after a command with this outcome (10_state R48, R49, R50). -/
def resultsAfter (s : State) : Except ErrCode Result → Operand × Operand × Bool × Bool
  | .ok (.point .identity) => (0, 0, true, s.oncurve)
  | .ok (.point (.affine x y)) => (BitVec.ofNat 1024 x, BitVec.ofNat 1024 y, false, s.oncurve)
  | .ok (.inverse x) => (BitVec.ofNat 1024 x, 0, false, s.oncurve)
  | .ok (.onCurve b) => (s.regs.x3, s.regs.y3, s.rInf, b)
  | .error _ => results s

/-- The numbers of the error codes (60_exceptions R150). -/
def errNumber : ErrCode → BitVec 4
  | .none => 0
  | .badop => 1
  | .param => 2
  | .range => 3
  | .noinv => 4
  | .fatal => 5

/-- The step of `s` is one of a reset: rst_n is asserted, or the host's turn comes and its action is a reset. -/
def resetStep (s : State) : Prop :=
  s.rstN = false ∨ (hostNext s ∧ ∃ item ∈ s.inbox.head?, isReset s.cfg item = true)

/-- The premises of the group laws: p a prime above 3 and 4a³ + 27b² not 0 modulo p (42_point_ops R132). -/
def goodCurve (a b p : Nat) : Prop := p.Prime ∧ 3 < p ∧ ¬ p ∣ 4 * a ^ 3 + 27 * b ^ 2

end Sys2Proof.Expect

open Sys2Proof.Expect

/-! ## Encoding -/

/-- 30_encoding R84: bits 3:2 and 31:8 of a CTRL write are ignored and read as 0 in CTRL, with the rule's own examples. -/
def Obligations.ReservedCtrlBitsIgnored : Prop :=
  (∀ d d' : Word, d &&& 0x000000F3 = d' &&& 0x000000F3 → decodeWord d = decodeWord d') ∧
  (∀ s : State, (s.busRead 0x008).1 &&& 0xFFFFFF0C = 0) ∧
  decodeWord 0xFFFFFF13 = .srst ∧ decodeWord 0xFFFFFF11 = .add ∧ decodeWord 0x00000F1D = .add ∧
  decodeWord 0xFFFFFF0D = .badop 0

/-- Decoding the bytes of any well-formed instruction gives it back, and leaves the bytes after it; and whatever a word
decodes to is well-formed. -/
def Obligations.DecodeInvertsEncode : Prop :=
  (∀ (i : Instr) (rest : List Byte), i.wf = true → decode (encode i ++ rest) = .ok (i, rest)) ∧
  ∀ d : Word, (decodeWord d).wf = true

/-- 30_encoding R81: the three cases of a CTRL write, over every 32-bit value. -/
def Obligations.CtrlWriteDecodesByStrobes : Prop :=
  ∀ (d : Word) (s : State),
    (d.getLsbD 1 = true → decodeWord d = .srst) ∧
    (d.getLsbD 1 = false → d.getLsbD 0 = true →
      requestOp (decodeWord d) = some (d.extractLsb' 4 4) ∧
      exec (decodeWord d) s = .next (s.request (d.extractLsb' 4 4))) ∧
    (d.getLsbD 1 = false → d.getLsbD 0 = false →
      decodeWord d = .setop (d.extractLsb' 4 4) ∧
      exec (decodeWord d) s = .next { s with ctrlOp := d.extractLsb' 4 4 })

/-- 30_encoding R91: the rows in that order, the first that matches decides, and some row matches every value. -/
def Obligations.FirstMatchingRowDecides : Prop :=
  ∀ d : Word, ((rows d).find? fun r => d &&& r.1 == r.2.1).map (fun r => r.2.2) = some (decodeWord d)

/-- Words written out from the encodings of 30_encoding R80 and R82 decode to the instructions they stand for. -/
def Obligations.WrittenOutWordsDecode : Prop :=
  decodeWord 0b00000000000000000000000000010001 = .add ∧ decodeWord 0b00000000000000000000000000100001 = .dbl ∧
  decodeWord 0b00000000000000000000000000110001 = .neg ∧ decodeWord 0b00000000000000000000000001000001 = .inv ∧
  decodeWord 0b00000000000000000000000001010001 = .smul ∧ decodeWord 0b00000000000000000000000001100001 = .chk ∧
  decodeWord 0b00000000000000000000000010010001 = .badop 9 ∧ decodeWord 0b00000000000000000000000000000010 = .srst ∧
  decodeWord 0b00000000000000000000000001010000 = .setop 5

/-! ## The step -/

/-- When the host's turn comes and its next action is a full-strobe write of CTRL whose bytes decode to `i`, the step is
`exec i` at the state after the engine's tick, with that action taken, and then the response err = 0 (model: logs 3, 4, 8). -/
def Obligations.StepRunsTheDecodedInstruction : Prop :=
  ∀ (s : State) (d : Word) (rest : List HostItem) (i : Instr),
    hostNext s → s.inbox = .write (s.cfg.base + 0x008) d 0b1111 :: rest → decode (wordBytes d) = .ok (i, []) →
      ∃ t, exec i { s.tick with inbox := rest } = .next t ∧
        step s = .next { t with resp := .write false :: t.resp }

/-- The model's `withFetchWord` puts the instruction where the next step runs it (log 3). -/
def Obligations.FetchWordRunsItsInstruction : Prop :=
  ∀ (s : State) (nbits w : Nat) (i : Instr), decodeTableWord nbits w = some i →
    step (s.withFetchWord nbits w) =
      respondOk (exec i { (s.withFetchWord nbits w).tick with inbox := s.inbox })

/-- 20_memory R61, R70, R73: one step takes at most one host action and answers at most one transaction, and a completion
event takes none and answers none. -/
def Obligations.OneEventPerStep : Prop :=
  ∀ s t : State, step s = .next t →
    ((t.inbox = s.inbox ∨ ∃ item, s.inbox = item :: t.inbox) ∧ (t.resp = s.resp ∨ ∃ r, t.resp = r :: s.resp)) ∧
    (∀ r, s.rstN = true → s.eng = .busy r → r.latLeft = 0 → t.inbox = s.inbox ∧ t.resp = s.resp ∧ t.busy = false)

/-! ## Requests -/

/-- 40_command_engine R99: a request is accepted, with the snapshot of the registers just before the write, DONE and ERR
cleared and the engine busy; while busy or fatal it only sets REJ (and CTRL.OP, 10_state R29). -/
def Obligations.RequestFollowsAcceptanceRule : Prop :=
  ∀ (i : Instr) (op : BitVec 4) (s : State), requestOp i = some op →
    (s.busy = false → s.fatal = false →
      ∃ r, r.snap = snapshotOf s op ∧
        exec i s = .next { s with ctrlOp := op, done := false, err := .none, eng := .busy r, draws := s.draws + 1 }) ∧
    ((s.busy = true ∨ s.fatal = true) → exec i s = .next { s with ctrlOp := op, rej := true })

/-- 30_encoding R85: a CTRL write with neither strobe changes nothing but CTRL.OP. -/
def Obligations.SetopChangesOnlyOp : Prop :=
  ∀ (op : BitVec 4) (s : State), exec (.setop op) s = .next { s with ctrlOp := op }

/-- 70_reset_and_hazards R171: an aligned full-strobe CTRL write with d[1] = 1 puts every piece of state of 10_state R52 at
its reset value, whatever the other bits of d hold, abandons a command in flight and answers err = 0. -/
def Obligations.SrstResetsAllState : Prop :=
  ∀ (s : State) (d : Word), d.getLsbD 1 = true →
    decodeWord d = .srst ∧ exec .srst s = .next (resetValues s) ∧
    s.busWrite 0x008 d 0b1111 = .next { resetValues s with resp := .write false :: s.resp }

/-- 70_reset_and_hazards R170: asserting rst_n puts every piece of state at its reset value and holds it there, with irq 0;
a transaction is refused meanwhile; deasserted, the core waits. -/
def Obligations.HardwareResetHoldsResetValues : Prop :=
  ∀ (s : State) (rest : List HostItem),
    (hostNext s → s.inbox = .rst false :: rest →
      ∃ t, step s = .next t ∧ t = resetValues { s with rstN := false, inbox := rest, draws := t.draws } ∧
        t.irq = false) ∧
    (s.rstN = false → s.inbox = [] → step s = .next (resetValues s)) ∧
    (s.rstN = false → ∀ level, s.inbox = .rst level :: rest →
      step s = .next (resetValues { s with rstN := level, inbox := rest })) ∧
    (s.rstN = false → ∀ item, s.inbox = item :: rest → (∀ level, item ≠ .rst level) →
      step s = .refused .transactionDuringReset) ∧
    (s.rstN = true → s.busy = false → s.inbox = [] → step s = .next s)

/-- 70_reset_and_hazards R172: after SRST the abandoned command never completes: with no further host action the machine
stays where it is for any number of steps, DONE, ERR and irq 0 and nothing committed. -/
def Obligations.AbandonedCommandNeverCompletes : Prop :=
  ∀ (s t : State) (n : Nat), s.busy = true → s.inbox = [] → exec .srst s = .next t →
    Sys2Proof.core.run n t = .next t ∧ t.busy = false ∧ t.done = false ∧ t.err = .none ∧ t.irq = false ∧
      t.regs.x3 = 0 ∧ t.regs.y3 = 0

/-! ## What each command does -/

/-- 40_command_engine R105: BADOP is accepted like any command and completes with ERR_BADOP, whatever P and the operands
hold; while busy or fatal it sets REJ and stores CTRL.OP (10_state R29; log 16 holds that reading against 60 R156); after
reset OP 0 ends with STATUS 0x102. -/
def Obligations.BadopEndsWithBadop : Prop :=
  (∀ (op : BitVec 4) (s : State), reservedOp op = true →
    (s.busy = false → s.fatal = false → completes (.badop op) s (failed s op .badop)) ∧
    ((s.busy = true ∨ s.fatal = true) → exec (.badop op) s = .next { s with ctrlOp := op, rej := true })) ∧
  statusWord (failed State.reset 0 .badop) = 0x00000102

/-- 42_point_ops R129: ADD with in-range operands ends with `padd(P1, P2)` committed, or with its error. -/
def Obligations.AddCommitsTheSum : Prop :=
  ∀ s : State, s.busy = false → s.fatal = false → 2 ≤ s.regs.p.toNat →
    s.p1.inRange s.regs.p.toNat = true → s.p2.inRange s.regs.p.toNat = true →
      completes .add s (pointOutcome s 1 (padd s.regs.a.toNat s.regs.p.toNat s.p1 s.p2))

/-- 42_point_ops R130: DBL with P1 in range ends with `padd(P1, P1)` committed, or with its error; P2 is not looked at. -/
def Obligations.DblCommitsTheDouble : Prop :=
  ∀ s : State, s.busy = false → s.fatal = false → 2 ≤ s.regs.p.toNat → s.p1.inRange s.regs.p.toNat = true →
    completes .dbl s (pointOutcome s 2 (padd s.regs.a.toNat s.regs.p.toNat s.p1 s.p1))

/-- 42_point_ops R123, R124: NEG with P1 in range commits Identity for Identity and (x, (−y) mod p) for (x, y). -/
def Obligations.NegCommitsTheNegative : Prop :=
  ∀ s : State, s.busy = false → s.fatal = false → 2 ≤ s.regs.p.toNat →
    (s.inf1 = true → completes .neg s (pointCommitted s 3 .identity)) ∧
    (s.inf1 = false → s.regs.x1.toNat < s.regs.p.toNat → s.regs.y1.toNat < s.regs.p.toNat →
      completes .neg s
        (pointCommitted s 3 (.affine s.regs.x1.toNat ((-(s.regs.y1.toNat : Int)) % s.regs.p.toNat).toNat)))

/-- 41_field_arithmetic R113: INV, for any X1, commits the inverse of X1 modulo P with Y3 = 0 and R_INF = 0 when
gcd(X1, P) = 1, and ends with the recoverable ERR_NOINV otherwise. -/
def Obligations.InvCommitsTheInverse : Prop :=
  ∀ s : State, s.busy = false → s.fatal = false → 2 ≤ s.regs.p.toNat →
    (Nat.gcd s.regs.x1.toNat s.regs.p.toNat = 1 →
      ∃ x, x < s.regs.p.toNat ∧ s.regs.x1.toNat * x % s.regs.p.toNat = 1 ∧
        completes .inv s
          { succeeded s 4 with rInf := false, regs := { s.regs with x3 := BitVec.ofNat 1024 x, y3 := 0 } }) ∧
    (Nat.gcd s.regs.x1.toNat s.regs.p.toNat ≠ 1 → completes .inv s (failed s 4 .noinv))

/-- 43_scalar_multiply R141: SMUL with P1 in range ends with `psmul(P1, n)` committed, n = KNEG ? −K : K, or with its
error. -/
def Obligations.SmulCommitsTheMultiple : Prop :=
  ∀ s : State, s.busy = false → s.fatal = false → 2 ≤ s.regs.p.toNat → s.p1.inRange s.regs.p.toNat = true →
    completes .smul s
      (pointOutcome s 5
        (psmul s.regs.a.toNat s.regs.p.toNat s.p1
          (if s.kneg then -(s.regs.k.toNat : Int) else (s.regs.k.toNat : Int))))

/-- 42_point_ops R121, R122: CHK with P1 in range sets ONCURVE to whether P1 satisfies the curve equation, and changes no
result register. -/
def Obligations.ChkReportsMembership : Prop :=
  ∀ s : State, s.busy = false → s.fatal = false → 2 ≤ s.regs.p.toNat → s.p1.inRange s.regs.p.toNat = true →
    ∃ b : Bool, (b = true ↔ onCurve s.regs.a.toNat s.regs.b.toNat s.regs.p.toNat s.p1) ∧
      completes .chk s { succeeded s 6 with oncurve := b }

/-- 60_exceptions R152, R153, R159: a valid command with P < 2 ends with ERR_PARAM, and one whose P1 (or, for ADD, P2) is out
of range with ERR_RANGE; INV has no range check. Nothing is committed. -/
def Obligations.FailedChecksCommitNothing : Prop :=
  ∀ (i : Instr) (op : BitVec 4) (s : State), requestOp i = some op → reservedOp op = false →
    s.busy = false → s.fatal = false →
    (s.regs.p.toNat < 2 → completes i s (failed s op .param)) ∧
    (2 ≤ s.regs.p.toNat → op ≠ 4 → s.p1.inRange s.regs.p.toNat = false → completes i s (failed s op .range)) ∧
    (2 ≤ s.regs.p.toNat → op = 1 → s.p1.inRange s.regs.p.toNat = true → s.p2.inRange s.regs.p.toNat = false →
      completes i s (failed s op .range))

/-- 40_command_engine R102: the order of the checks on a snapshot, and which errors the operation functions can raise. -/
def Obligations.ChecksFailInOrder : Prop :=
  ∀ sn : Snapshot,
    (reservedOp sn.op = true → execute sn = .error .badop) ∧
    (reservedOp sn.op = false → sn.p.toNat < 2 → execute sn = .error .param) ∧
    (reservedOp sn.op = false → 2 ≤ sn.p.toNat → sn.op ≠ 4 → sn.p1.inRange sn.p.toNat = false →
      execute sn = .error .range) ∧
    (sn.op = 1 → 2 ≤ sn.p.toNat → sn.p1.inRange sn.p.toNat = true → sn.p2.inRange sn.p.toNat = false →
      execute sn = .error .range) ∧
    (reservedOp sn.op = false → 2 ≤ sn.p.toNat → (sn.op ≠ 4 → sn.p1.inRange sn.p.toNat = true) →
      (sn.op = 1 → sn.p2.inRange sn.p.toNat = true) →
      (∃ res, execute sn = .ok res) ∨ (sn.op = 4 ∧ execute sn = .error .noinv) ∨
        ((sn.op = 1 ∨ sn.op = 2 ∨ sn.op = 5) ∧ execute sn = .error .fatal))

/-- 10_state R48: the outcome of a command depends only on the fields of the snapshot its row of the table reads; a reserved
opcode reads none, not P either. -/
def Obligations.CommandsReadOnlyTheirOperands : Prop :=
  ∀ sn sn' : Snapshot, sn'.op = sn.op →
    (sn.op = 1 → sn'.p = sn.p → sn'.a = sn.a → sn'.p1 = sn.p1 → sn'.p2 = sn.p2 → execute sn' = execute sn) ∧
    (sn.op = 2 → sn'.p = sn.p → sn'.a = sn.a → sn'.p1 = sn.p1 → execute sn' = execute sn) ∧
    (sn.op = 3 → sn'.p = sn.p → sn'.p1 = sn.p1 → execute sn' = execute sn) ∧
    (sn.op = 4 → sn'.p = sn.p → sn'.x1 = sn.x1 → execute sn' = execute sn) ∧
    (sn.op = 5 → sn'.p = sn.p → sn'.a = sn.a → sn'.p1 = sn.p1 → sn'.kmag = sn.kmag → sn'.kneg = sn.kneg →
      execute sn' = execute sn) ∧
    (sn.op = 6 → sn'.p = sn.p → sn'.a = sn.a → sn'.b = sn.b → sn'.p1 = sn.p1 → execute sn' = execute sn) ∧
    (reservedOp sn.op = true → execute sn' = execute sn)

/-- 10_state R25: A and B count only modulo P. -/
def Obligations.CoefficientsCountModuloP : Prop :=
  ∀ (sn : Snapshot) (a' b' : Operand), a'.toNat % sn.p.toNat = sn.a.toNat % sn.p.toNat →
    b'.toNat % sn.p.toNat = sn.b.toNat % sn.p.toNat → execute { sn with a := a', b := b' } = execute sn

/-! ## Arithmetic -/

/-- 41_field_arithmetic R112: for m ≥ 2 `finv` answers the one x in [0, m) with a·x ≡ 1 (mod m), and raises NoInverse
exactly when gcd(a, m) ≠ 1. -/
def Obligations.FinvAnswersTheUniqueInverse : Prop :=
  ∀ a m : Nat, 2 ≤ m →
    (∀ x, finv a m = some x ↔ x < m ∧ a * x % m = 1) ∧ (finv a m = none ↔ Nat.gcd a m ≠ 1)

/-- 41_field_arithmetic R111 with 00_scope R10: the helpers answer the remainders of the exact integers, in [0, m). -/
def Obligations.FieldHelpersAnswerResidues : Prop :=
  ∀ (m : Nat) (u v : Int), 2 ≤ m →
    ((fadd m u v : Int) = (u + v) % m ∧ fadd m u v < m) ∧ ((fsub m u v : Int) = (u - v) % m ∧ fsub m u v < m) ∧
    ((fmul m u v : Int) = (u * v) % m ∧ fmul m u v < m) ∧ ((fneg m u : Int) = (-u) % m ∧ fneg m u < m)

/-- 42_point_ops R126, R127, R128: on two in-range affine points the sum is Identity when the denominator is 0; else, when
it is invertible modulo p, the affine point of R128 for the one slope λ with λ·den ≡ num; else FATAL is raised. -/
def Obligations.GroupLawOnAffinePoints : Prop :=
  ∀ (a p x1 y1 x2 y2 : Nat), 2 ≤ p → x1 < p → y1 < p → x2 < p → y2 < p →
    ∀ num den : Int,
      num = (if x1 = x2 ∧ y1 = y2 then (3 * x1 * x1 + a : Int) % p else ((y2 : Int) - y1) % p) →
      den = (if x1 = x2 ∧ y1 = y2 then (2 * y1 : Int) % p else ((x2 : Int) - x1) % p) →
      (den = 0 → padd a p (.affine x1 y1) (.affine x2 y2) = .ok .identity) ∧
      (den ≠ 0 → Int.gcd den p = 1 →
        ∃ lam x3 y3 : Nat, lam < p ∧ ((lam : Int) * den - num) % p = 0 ∧
          (x3 : Int) = ((lam : Int) * lam - x1 - x2) % p ∧ (y3 : Int) = ((lam : Int) * ((x1 : Int) - x3) - y1) % p ∧
          padd a p (.affine x1 y1) (.affine x2 y2) = .ok (.affine x3 y3)) ∧
      (den ≠ 0 → Int.gcd den p ≠ 1 → padd a p (.affine x1 y1) (.affine x2 y2) = .error .fatal)

/-- 42_point_ops R132: the identity, inverse and commutative laws, for every in-range point, on the curve or not, p prime or
not. -/
def Obligations.GroupLawsForEveryInRangePoint : Prop :=
  ∀ (a p : Nat) (q r : Pt), 2 ≤ p → q.inRange p = true → r.inRange p = true →
    padd a p q .identity = .ok q ∧ padd a p .identity q = .ok q ∧ padd a p q (pneg p q) = .ok .identity ∧
    padd a p q r = padd a p r q

/-- 42_point_ops R127: with a prime p the group law and scalar multiplication never raise FATAL on in-range points. -/
def Obligations.PrimeModulusNeverFatal : Prop :=
  ∀ (a p : Nat) (q r : Pt) (n : Int), p.Prime → q.inRange p = true → r.inRange p = true →
    (∃ t, padd a p q r = .ok t) ∧ ∃ t, psmul a p q n = .ok t

/-- 42_point_ops R128: with p a prime above 3 and a non-singular curve the sum of two on-curve points is on the curve. -/
def Obligations.SumStaysOnTheCurve : Prop :=
  ∀ (a b p : Nat) (q r t : Pt), goodCurve a b p → q.inRange p = true → r.inRange p = true →
    onCurve a b p q → onCurve a b p r → padd a p q r = .ok t → onCurve a b p t

/-- 43_scalar_multiply R145: under the premises of the group law, scalar multiplication is linear in the scalar. -/
def Obligations.ScalarMultiplyIsLinear : Prop :=
  ∀ (a b p m n : Nat) (q : Pt), goodCurve a b p → q.inRange p = true → onCurve a b p q →
    ∃ r t u, psmul a p q m = .ok r ∧ psmul a p q n = .ok t ∧ padd a p r t = .ok u ∧
      psmul a p q ((m : Int) + n) = .ok u

/-- 43_scalar_multiply R142, R145: a negative scalar multiplies the negated point, for every point and modulus. -/
def Obligations.NegativeScalarRedirects : Prop :=
  ∀ (a p n : Nat) (q : Pt), psmul a p q (-(n : Int)) = psmul a p (pneg p q) n

/-- 43_scalar_multiply R140, R143: a loop that raises nothing runs exactly bitlength(n) iterations, and its result is there.
After `k` iterations that raise nothing, temp is the point doubled `k` times, n is shifted right `k` places, and result is
the sum over the set bits among the lowest `k`, each addition with temp before that iteration's doubling. SMUL answers the sum
over all bits exactly when no addition and no doubling raises, and an addition that raises ends it with its error. -/
def Obligations.LoopRunsBitLengthIterations : Prop :=
  ∀ (a p n : Nat) (q : Pt),
    (∀ t, dbladd a p q n = .ok t →
      (smulAdvance a p n.size (dbladdStart q n)).n = 0 ∧
      (smulAdvance a p n.size (dbladdStart q n)).result = t ∧
      ∀ k, k < n.size → (smulAdvance a p k (dbladdStart q n)).n ≠ 0) ∧
    (∀ k r t, k ≤ n.size → partialSum a p q n k = .ok r → doublings a p q k = .ok t →
      smulAdvance a p k (dbladdStart q n) = { result := r, temp := t, n := n / 2 ^ k }) ∧
    (∀ r, psmul a p q n = .ok r ↔
      partialSum a p q n n.size = .ok r ∧ ∃ t, doublings a p q n.size = .ok t) ∧
    ∀ k e, k ≤ n.size → partialSum a p q n k = .error e → psmul a p q n = .error e

/-- 43_scalar_multiply R144: a scalar of bit length L needs all L doublings, the last iteration's included: SMUL answers only
if none of them raises, and what one of them raises is its outcome, for either sign. For n = 1 and for n = 2 the last
doubling alone can raise: on p = 15, a = 0, P1 = (1, 5), and on p = 15, a = 1, P1 = (0, 1). -/
def Obligations.TrailingDoublingIsDone : Prop :=
  (∀ (a p : Nat) (q : Pt) (n : Int), n ≠ 0 →
    ∀ r, r = (if n < 0 then pneg p q else q) →
      (∀ t, psmul a p q n = .ok t → ∃ u, doublings a p r n.natAbs.size = .ok u) ∧
      (∀ e, doublings a p r n.natAbs.size = .error e → psmul a p q n = .error e)) ∧
  (∀ (a p : Nat) (q t : Pt), padd a p q q = .ok t → psmul a p q 1 = .ok q) ∧
  psmul 0 15 (.affine 1 5) 1 = .error .fatal ∧
  doublings 1 15 (.affine 0 1) 1 = .ok (.affine 4 12) ∧ psmul 1 15 (.affine 0 1) 2 = .error .fatal

/-! ## Completion -/

/-- 40_command_engine R101, R103: when the completion event is due, the step performs `Execute` on the snapshot and, as one
event, commits the result with ERR_NONE or reports the error, sets DONE and frees the engine; nothing else changes. -/
def Obligations.CompletionIsOneEvent : Prop :=
  ∀ (s : State) (r : Running), s.Inv → s.rstN = true → s.eng = .busy r → r.latLeft = 0 →
    (∀ e, execute r.snap = .error e →
      step s = .next { s with err := e, fatal := decide (e = .fatal), done := true, eng := .idle }) ∧
    (∀ b, execute r.snap = .ok (.onCurve b) →
      step s = .next { s with oncurve := b, done := true, eng := .idle }) ∧
    (∀ x, execute r.snap = .ok (.inverse x) →
      step s = .next { s with
        regs := { s.regs with x3 := BitVec.ofNat 1024 x, y3 := 0 }, rInf := false, done := true, eng := .idle }) ∧
    (execute r.snap = .ok (.point .identity) →
      step s = .next { s with
        regs := { s.regs with x3 := 0, y3 := 0 }, rInf := true, done := true, eng := .idle }) ∧
    (∀ x y, execute r.snap = .ok (.point (.affine x y)) →
      step s = .next { s with
        regs := { s.regs with x3 := BitVec.ofNat 1024 x, y3 := BitVec.ofNat 1024 y }, rInf := false,
        done := true, eng := .idle })

/-- 70_reset_and_hazards R176: a command in flight reaches its completion event after finitely many steps, DONE set, ERR its
code and the results those of its outcome, whatever the host writes meanwhile (R180), if the host keeps the contract and no
reset or SRST is pending. From the acceptance on, that outcome is Execute on the snapshot taken there (10_state R43,
40_command_engine R100, R104). -/
def Obligations.AcceptedCommandCompletes : Prop :=
  (∀ (s : State) (r : Running), s.rstN = true → s.eng = .busy r → s.contract = true →
    (∀ item ∈ s.inbox, isReset s.cfg item = false) →
      ∃ t : State, Sys2Proof.core.run (r.latLeft + 1) s = .next t ∧ t.busy = false ∧ t.done = true ∧
        results t = resultsAfter s r.outcome ∧ (∀ res, r.outcome = .ok res → t.err = .none) ∧
        ∀ e, r.outcome = .error e → t.err = e ∧ (e = .fatal → t.fatal = true)) ∧
  ∀ (i : Instr) (op : BitVec 4) (s u : State) (r : Running), requestOp i = some op → s.busy = false → s.fatal = false →
    exec i s = .next u → u.eng = .busy r →
      r.snap = snapshotOf s op ∧ r.outcome = execute (snapshotOf s op) ∧ results u = results s

/-- 70_reset_and_hazards R179: results change only at a completion event that succeeds, or go to 0 in a step that is a
reset: rst_n asserted or about to be, or an SRST write. -/
def Obligations.ResultsChangeOnlyAtCompletion : Prop :=
  ∀ s t : State, step s = .next t →
    (t.regs.x3 = s.regs.x3 ∧ t.regs.y3 = s.regs.y3 ∧ t.rInf = s.rInf ∧ t.oncurve = s.oncurve) ∨
    (s.rstN = true ∧ ∃ r res, s.eng = .busy r ∧ r.latLeft = 0 ∧ r.outcome = .ok res) ∨
    (resetStep s ∧ t.busy = false ∧ t.regs.x3 = 0 ∧ t.regs.y3 = 0 ∧ t.rInf = false ∧ t.oncurve = false)

/-- 10_state R24, R48: no command writes an operand register, an operand flag or the interrupt enable: not its request, and
not its completion. -/
def Obligations.CommandsWriteNoOperand : Prop :=
  ∀ (i : Instr) (op : BitVec 4) (s t u : State), requestOp i = some op → exec i s = .next t →
    u = t ∨ u = t.engineComplete →
      (∀ r : Reg, r.busWritable = true → u.regs.get r = s.regs.get r) ∧ u.inf1 = s.inf1 ∧ u.inf2 = s.inf2 ∧
      u.kneg = s.kneg ∧ u.doneIe = s.doneIe ∧ u.cfg = s.cfg ∧ u.rstN = s.rstN ∧ u.inbox = s.inbox ∧ u.resp = s.resp

/-- 10_state R38: ONCURVE takes the result of a CHK that commits; no other completion changes it. -/
def Obligations.OncurveIsTheLastChk : Prop :=
  ∀ (s : State) (r : Running), s.Inv → s.eng = .busy r →
    (r.snap.op ≠ 6 → s.engineComplete.oncurve = s.oncurve) ∧
    (r.snap.op = 6 → ∀ res, execute r.snap = .ok res →
      (s.engineComplete.oncurve = true ↔ onCurve r.snap.a.toNat r.snap.b.toNat r.snap.p.toNat r.snap.p1)) ∧
    (∀ e, execute r.snap = .error e → s.engineComplete.oncurve = s.oncurve)

/-- 10_state R37, 60_exceptions R155: once FATAL is set with the engine idle, it stays set, ERR keeps its code and no
command runs, until the host's action is a reset or SRST. -/
def Obligations.FatalBlocksUntilReset : Prop :=
  ∀ s t : State, s.fatal = true → s.busy = false → s.rstN = true →
    (∀ item ∈ s.inbox.head?, isReset s.cfg item = false) → step s = .next t →
      t.fatal = true ∧ t.busy = false ∧ t.err = s.err ∧ t.rstN = true

/-! ## The register bus -/

/-- 60_exceptions R157, 20_memory R63, R64: a misaligned or partial-strobe access changes nothing and answers err = 1, a
read of it data 0; every other access answers err = 0. -/
def Obligations.BusErrorsChangeNothing : Prop :=
  ∀ (s : State) (off : Offset) (d : Word) (strb : BitVec 4),
    (off.toNat % 4 ≠ 0 → s.busRead off = (0, true)) ∧ (off.toNat % 4 = 0 → (s.busRead off).2 = false) ∧
    (off.toNat % 4 ≠ 0 ∨ strb ≠ 0b1111 →
      s.busWrite off d strb = .next { s with resp := .write true :: s.resp }) ∧
    (off.toNat % 4 = 0 → strb = 0b1111 →
      ∃ t : State, s.busWrite off d strb = .next { t with resp := .write false :: s.resp })

/-- 20_memory R62, R69: a read answers its data and changes nothing else (the hidden engine tick apart). -/
def Obligations.ReadsChangeNothing : Prop :=
  ∀ (s : State) (off : Offset) (rest : List HostItem), hostNext s → s.inbox = .read (s.cfg.base + off.toNat) :: rest →
    step s = .next { s.tick with
      inbox := rest, resp := .read (s.busRead off).1 (s.busRead off).2 :: s.resp }

/-- 10_state R21, R23: word j of a register's window, at the register's offset, is bits [32j+31 : 32j] of its value for
j < NW; for NW ≤ j ≤ 31 it reads 0, ignores writes, and is no error. -/
def Obligations.OperandWindowLayout : Prop :=
  [Reg.a, .b, .p, .x1, .y1, .x2, .y2, .k, .x3, .y3].map Reg.window =
    [0x100, 0x180, 0x200, 0x280, 0x300, 0x380, 0x400, 0x480, 0x500, 0x580] ∧
  ∀ (s : State) (r : Reg) (j : Nat) (d : Word), (s.regs.get r).toNat < 2 ^ s.cfg.w → j < 32 →
    (j < s.cfg.nw →
      s.busRead (BitVec.ofNat 12 (r.window + 4 * j)) = ((s.regs.get r).extractLsb' (32 * j) 32, false)) ∧
    (s.cfg.nw ≤ j →
      s.busRead (BitVec.ofNat 12 (r.window + 4 * j)) = (0, false) ∧
      s.busWrite (BitVec.ofNat 12 (r.window + 4 * j)) d 0b1111 =
        .next { s with resp := .write false :: s.resp })

/-- 10_state R22: a write of word j < NW of a writable register stores the word less the bits at or above W, in that word
only and in that register only, whatever the engine does; a read of the word then gives it so, and the register stays below
2^W. -/
def Obligations.OperandWriteReadsBackMasked : Prop :=
  ∀ (s : State) (r : Reg) (j : Nat) (d : Word), s.cfg.wf = true → j < s.cfg.nw → r.busWritable = true →
    ∃ (v : Operand) (t : State) (back : Word),
      s.busWrite (BitVec.ofNat 12 (r.window + 4 * j)) d 0b1111 = .next t ∧
      t = { s with regs := s.regs.set r v, resp := .write false :: s.resp } ∧
      t.busRead (BitVec.ofNat 12 (r.window + 4 * j)) = (back, false) ∧
      (∀ i, i < 32 → back.getLsbD i = (decide (32 * j + i < s.cfg.w) && d.getLsbD i)) ∧
      v.toNat < 2 ^ s.cfg.w ∧
      (∀ i, i < 32 → v.getLsbD (32 * j + i) = (decide (32 * j + i < s.cfg.w) && d.getLsbD i)) ∧
      (∀ i, i < s.cfg.w → i / 32 ≠ j → v.getLsbD i = (s.regs.get r).getLsbD i)

/-- 20_memory R65, R71, 10_state R20, R24: a full write of ID, CFG, X3, Y3 or a reserved offset changes nothing and is no
error, and a reserved offset reads as zero without error. -/
def Obligations.ReadOnlyAndReservedLocations : Prop :=
  ∀ (s : State) (off : Offset) (d : Word), off.toNat % 4 = 0 →
    (off.toNat < 0x008 ∨ (0x018 ≤ off.toNat ∧ off.toNat < 0x100) ∨ 0x500 ≤ off.toNat →
      s.busWrite off d 0b1111 = .next { s with resp := .write false :: s.resp }) ∧
    ((0x018 ≤ off.toNat ∧ off.toNat < 0x100) ∨ 0x600 ≤ off.toNat → s.busRead off = (0, false))

/-- 10_state R27, R28: ID and CFG read their constants, field by field, and ignore writes without error. -/
def Obligations.IdAndCfgAreConstants : Prop :=
  ∀ (s : State) (d : Word), s.cfg.wf = true →
    s.busRead 0x000 = (0xECC00100, false) ∧
    (∃ c, s.busRead 0x004 = (c, false) ∧ (c.extractLsb' 0 16).toNat = s.cfg.w ∧
      (c.extractLsb' 16 8).toNat = (s.cfg.w + 31) / 32 ∧ c.extractLsb' 24 8 = 0) ∧
    s.busWrite 0x000 d 0b1111 = .next { s with resp := .write false :: s.resp } ∧
    s.busWrite 0x004 d 0b1111 = .next { s with resp := .write false :: s.resp }

/-- 10_state R29: every CTRL write stores d[7:4] into OP, accepted or not, unless SRST is set in it; CTRL reads
(24'b0, OP, 4'b0). -/
def Obligations.CtrlStoresAndReadsOp : Prop :=
  ∀ (s : State) (d : Word),
    s.busRead 0x008 = (0#24 ++ s.ctrlOp ++ 0#4, false) ∧
    (d.getLsbD 1 = false → ∃ t, s.busWrite 0x008 d 0b1111 = .next t ∧ t.ctrlOp = d.extractLsb' 4 4) ∧
    (d.getLsbD 1 = true → ∃ t, s.busWrite 0x008 d 0b1111 = .next t ∧ t.ctrlOp = 0)

/-- 10_state R31: a PTFLAGS write stores bits 0 to 2 into INF1, INF2, KNEG and ignores the rest, R_INF with it; a read
gives the four flags in their places and 0 elsewhere. -/
def Obligations.PtflagsWriteAndRead : Prop :=
  ∀ (s : State) (d : Word),
    s.busWrite 0x014 d 0b1111 =
      .next { s with
        inf1 := d.getLsbD 0, inf2 := d.getLsbD 1, kneg := d.getLsbD 2, resp := .write false :: s.resp } ∧
    ∃ v, s.busRead 0x014 = (v, false) ∧ v.getLsbD 0 = s.inf1 ∧ v.getLsbD 1 = s.inf2 ∧ v.getLsbD 2 = s.kneg ∧
      v.getLsbD 8 = s.rInf ∧ v &&& 0xFFFFFEF8 = 0

/-- 10_state R33, R34, R39, 60_exceptions R150: the fields of a STATUS read, in their places, 0 elsewhere; ERR reads as the
number of its code, 0 for none and 1 to 5 for BADOP, PARAM, RANGE, NOINV and FATAL. -/
def Obligations.StatusReadsItsFields : Prop :=
  ∀ s : State, ∃ v, s.busRead 0x00C = (v, false) ∧ v.getLsbD 0 = s.busy ∧ v.getLsbD 1 = s.done ∧
    v.getLsbD 2 = s.rej ∧ v.getLsbD 3 = s.fatal ∧ v.getLsbD 4 = s.oncurve ∧ v.extractLsb' 8 4 = errNumber s.err ∧
    v &&& 0xFFFFF0E0 = 0 ∧ (v.extractLsb' 8 4).toNat ≤ 5

/-- 70_reset_and_hazards R183, 10_state R33: a STATUS write clears DONE (and irq with it) where bit 1 is 1 and REJ where
bit 2 is 1, and nothing else. -/
def Obligations.StatusWriteOneToClear : Prop :=
  ∀ (s : State) (d : Word), ∃ t, s.busWrite 0x00C d 0b1111 = .next t ∧
    t = { s with
      done := if d.getLsbD 1 then false else s.done, rej := if d.getLsbD 2 then false else s.rej
      resp := .write false :: s.resp } ∧
    (d.getLsbD 1 = true → t.irq = false) ∧ t.busy = s.busy ∧ t.err = s.err ∧ t.fatal = s.fatal

/-- 10_state R40, R41: INTEN holds bit 0 only, and irq is DONE AND DONE_IE, 0 after reset. -/
def Obligations.IrqIsDoneAndEnabled : Prop :=
  ∀ (s : State) (d : Word),
    s.busWrite 0x010 d 0b1111 = .next { s with doneIe := d.getLsbD 0, resp := .write false :: s.resp } ∧
    s.busRead 0x010 = (if s.doneIe then 1 else 0, false) ∧ (s.irq = true ↔ s.done = true ∧ s.doneIe = true) ∧
    State.reset.irq = false ∧ State.reset.doneIe = false

/-- 10_state R51, R43: a write at any offset but CTRL's leaves the engine, and so the snapshot of a command in flight,
alone. -/
def Obligations.OperandWritesDoNotDisturbTheCommand : Prop :=
  ∀ (s t : State) (off : Offset) (d : Word) (strb : BitVec 4), off ≠ 0x008 → s.busWrite off d strb = .next t →
    t.eng = s.eng ∧ t.ctrlOp = s.ctrlOp ∧ t.err = s.err ∧ t.fatal = s.fatal ∧ t.oncurve = s.oncurve ∧
      t.rInf = s.rInf ∧ t.regs.x3 = s.regs.x3 ∧ t.regs.y3 = s.regs.y3

/-- 30_encoding R93: the `ld` sequence of NW writes puts VALUE, less the bits at or above W, into the register and changes
nothing else but the host's side. -/
def Obligations.LoadSequenceStoresTheValue : Prop :=
  ∀ (s : State) (r : Reg) (v : Nat) (rest : List HostItem), s.cfg.wf = true → s.rstN = true → s.busy = false →
    r.busWritable = true → s.inbox = hostLd s.cfg r v ++ rest →
      ∃ resp', Sys2Proof.core.run s.cfg.nw s =
        .next { s with
          regs := s.regs.set r (BitVec.ofNat 1024 (v % 2 ^ s.cfg.w)), inbox := rest, resp := resp' ++ s.resp }

/-- 30_encoding R96: one step of the host's `wait` reads STATUS, and the host goes on only when DONE = 1. -/
def Obligations.WaitReadsStatusUntilDone : Prop :=
  ∀ (s : State) (rest : List HostItem), hostNext s → s.inbox = .wait :: rest →
    step s = .next { s.tick with
      inbox := if s.done then rest else .wait :: rest, resp := .read (s.busRead 0x00C).1 false :: s.resp }

/-! ## Whole-machine rules -/

/-- The invariant holds after reset, for all legal parameters. -/
def Obligations.ResetStateSatisfiesInv : Prop :=
  ∀ c : Config, c.wf = true → (State.resetOf c).Inv

/-- Every step keeps the invariant. -/
def Obligations.StepKeepsInv : Prop :=
  ∀ s t : State, s.Inv → step s = .next t → t.Inv

/-- 70_reset_and_hazards R178: from acceptance to completion STATUS.ERR and DONE read 0. -/
def Obligations.StatusIsQuietWhileBusy : Prop :=
  ∀ s : State, s.Inv → s.busy = true →
    ((s.busRead 0x00C).1.extractLsb' 8 4 = 0) ∧ (s.busRead 0x00C).1.getLsbD 1 = false

/-- A step stops only where the host breaks its contract (20_memory R60, 70 R170; logs 6, 7): while it keeps it, the machine
steps on and the contract stays kept. -/
def Obligations.HostContractKeepsTheMachineGoing : Prop :=
  ∀ s : State, s.contract = true → ∃ t, step s = .next t ∧ t.contract = true

/-- The model's stop outside the window (20_memory R60, log 6). -/
def Obligations.TransactionOutsideTheWindowFaults : Prop :=
  ∀ (s : State) (addr : Nat) (d : Word) (strb : BitVec 4) (rest : List HostItem), hostNext s →
    (addr < s.cfg.base ∨ s.cfg.base + 0xFFF < addr) →
    (s.inbox = .read addr :: rest → step s = .fault (.outsideWindow addr)) ∧
    (s.inbox = .write addr d strb :: rest → step s = .fault (.outsideWindow addr))
end

