-- ==== Sys2Proof/Laws/Arith.lean ====
section
/-! SUPPORT. What the arithmetic functions answer: the normalised residue, and the loop invariant of extended Euclid. -/

namespace Sys2Proof.Laws

open Sys2Proof.Machine

/-- The residue is the mathematical remainder (00_scope R10). -/
theorem residue_eq (v : Int) {m : Nat} (hm : 0 < m) : (residue v m : Int) = v % m := by
  have hm' : (0 : Int) < m := by exact_mod_cast hm
  have hlt := Int.tmod_lt_of_pos v hm'
  have hge : -(m : Int) < v.tmod m := by
    have := Int.tmod_lt_of_pos (-v) hm'
    rw [Int.neg_tmod] at this
    omega
  have hnn : 0 ≤ v.tmod m + m := by omega
  unfold residue
  rw [Int.tmod_eq_emod_of_nonneg hnn, Int.toNat_of_nonneg (Int.emod_nonneg _ (by omega)),
    Int.add_emod_right]
  have h := Int.mul_tdiv_add_tmod v m
  conv_rhs => rw [← h]
  rw [Int.mul_add_emod_self_left]

/-- The residue lies in [0, m) (00_scope R10). -/
theorem residue_lt (v : Int) {m : Nat} (hm : 0 < m) : residue v m < m := by
  have h := residue_eq v hm
  have h2 := Int.emod_lt_of_pos v (show (0 : Int) < m by exact_mod_cast hm)
  omega

/-- The residue of a natural number. -/
theorem residue_ofNat (a : Nat) {m : Nat} (hm : 0 < m) : residue (a : Int) m = a % m := by
  have h := residue_eq (a : Int) hm
  exact_mod_cast h

/-- Residues agree exactly where the integers do modulo m. -/
theorem residue_eq_iff (u v : Int) {m : Nat} (hm : 0 < m) : residue u m = residue v m ↔ u % m = v % m := by
  rw [← residue_eq u hm, ← residue_eq v hm]
  exact_mod_cast Iff.rfl

/-- The remainder a Euclid step computes. -/
theorem euclid_rem (r0 r1 : Nat) : r0 - r0 / r1 * r1 = r0 % r1 := by
  have := Nat.div_add_mod r0 r1
  rw [Nat.mul_comm] at this
  omega

/-- With the initial r1 as bound the loop runs to its end: more fuel changes nothing (41_field_arithmetic R112). -/
theorem euclid_done (f g r0 r1 : Nat) (t0 t1 : Int) (hf : r1 ≤ f) (hg : r1 ≤ g) :
    euclid f r0 r1 t0 t1 = euclid g r0 r1 t0 t1 := by
  induction f generalizing g r0 r1 t0 t1 with
  | zero =>
    obtain rfl : r1 = 0 := by omega
    cases g <;> simp [euclid]
  | succ f ih =>
    cases g with
    | zero =>
      obtain rfl : r1 = 0 := by omega
      simp [euclid]
    | succ g =>
      by_cases h : r1 = 0
      · simp [euclid, h]
      · have hlt : r0 - r0 / r1 * r1 < r1 := by rw [euclid_rem]; exact Nat.mod_lt _ (by omega)
        simp only [euclid, h, if_false]
        exact ih _ _ _ _ _ (by omega) (by omega)

/-- The loop ends with r0 the greatest common divisor of its operands, and keeps `r ≡ t · a` modulo m. -/
theorem euclid_spec (m : Int) (a : Int) (f r0 r1 : Nat) (t0 t1 : Int) (hf : r1 ≤ f)
    (h0 : m ∣ (r0 : Int) - t0 * a) (h1 : m ∣ (r1 : Int) - t1 * a) :
    (euclid f r0 r1 t0 t1).1 = Nat.gcd r0 r1 ∧
      m ∣ ((euclid f r0 r1 t0 t1).1 : Int) - (euclid f r0 r1 t0 t1).2 * a := by
  induction f generalizing r0 r1 t0 t1 with
  | zero =>
    obtain rfl : r1 = 0 := by omega
    simpa [euclid] using h0
  | succ f ih =>
    by_cases h : r1 = 0
    · subst h; simpa [euclid] using h0
    · have hlt : r0 % r1 < r1 := Nat.mod_lt _ (by omega)
      simp only [euclid, h, if_false, euclid_rem]
      have key : m ∣ ((r0 % r1 : Nat) : Int) - (t0 - ↑(r0 / r1) * t1) * a := by
        have e : ((r0 % r1 : Nat) : Int) = r0 - (r0 / r1 : Nat) * r1 := by
          have := Nat.div_add_mod r0 r1
          have : ((r1 * (r0 / r1) + r0 % r1 : Nat) : Int) = r0 := by exact_mod_cast this
          push_cast at this ⊢
          linarith
        rw [e]
        generalize ((r0 / r1 : Nat) : Int) = q
        have h := dvd_sub h0 (Dvd.dvd.mul_left h1 q)
        rwa [show (r0 : Int) - q * r1 - (t0 - q * t1) * a = r0 - t0 * a - q * (r1 - t1 * a) by ring]
      obtain ⟨hg, hd⟩ := ih _ _ _ _ (by omega) h1 key
      refine ⟨?_, hd⟩
      rw [hg, Nat.gcd_comm r1, Nat.gcd_comm r0, ← Nat.gcd_rec]

/-- The inverse is a residue. -/
theorem finv_lt {a m x : Nat} (hm : 0 < m) (h : finv a m = some x) : x < m := by
  unfold finv at h
  split at h
  split at h
  · cases h; exact residue_lt _ hm
  · cases h

end Sys2Proof.Laws
end

