-- ==== Sys2Proof/Laws/Decode.lean ====
section
/-! SUPPORT. Facts about the decoder and the encoder: the rows as bit tests, and the byte lanes. -/

namespace Sys2Proof.Laws

/-- The SRST row tests bit 1. -/
theorem rowSrst_hits (d : Word) : rowSrst.hits d = d.getLsbD 1 := by
  unfold CtrlRow.hits rowSrst
  rw [Bool.eq_iff_iff, beq_iff_eq]
  constructor
  · intro h
    have := congrArg (fun v : Word => v.getLsbD 1) h
    simpa using this
  · intro h
    ext i hi
    by_cases h1 : i = 1
    · subst h1; simpa using h
    · have : (2#32 : Word).getLsbD i = false := by
        have : ∀ j : Fin 32, j.val ≠ 1 → (2#32 : Word).getLsbD j.val = false := by decide
        exact this ⟨i, hi⟩ h1
      simp [← BitVec.getLsbD_eq_getElem, this]

/-- SETOP's row matches whatever no earlier row matches (30_encoding R91). -/
theorem setop_row_covers_rest (d : Word) (h1 : rowSrst.hits d = false) (h2 : rowBadop.hits d = false) :
    rowSetop.hits d = true := by
  rw [rowSrst_hits] at h1
  have two_bits : d &&& 3 = (if d.getLsbD 1 then 2 else 0) + (if d.getLsbD 0 then 1 else 0) := by
    have h3 : d &&& 3 = (d.extractLsb' 0 2).setWidth 32 := by
      ext i hi
      have : (3#32 : Word).getLsbD i = decide (i < 2) := by
        have : ∀ j : Fin 32, (3#32 : Word).getLsbD j.val = decide (j.val < 2) := by decide
        exact this ⟨i, hi⟩
      simp only [← BitVec.getLsbD_eq_getElem, BitVec.getLsbD_and, BitVec.getLsbD_setWidth,
        BitVec.getLsbD_extractLsb', BitVec.ofNat_eq_ofNat, this]
      simp [hi, Bool.and_comm]
    have key : ∀ v : BitVec 2, v.setWidth 32 =
        (if v.getLsbD 1 then (2 : Word) else 0) + (if v.getLsbD 0 then 1 else 0) := by decide
    rw [h3, key]
    simp
  unfold CtrlRow.hits rowBadop at h2
  unfold CtrlRow.hits rowSetop
  rw [show ((3 : Word)) = 0x00000003 from rfl] at two_bits
  simp only [two_bits, h1] at h2 ⊢
  cases h0 : d.getLsbD 0 <;> simp_all

/-- The byte lanes of a word put together are the word (20_memory R66). -/
theorem bytesWord_wordBytes (d : Word) :
    bytesWord (d.extractLsb' 0 8) (d.extractLsb' 8 8) (d.extractLsb' 16 8) (d.extractLsb' 24 8) = d := by
  unfold bytesWord
  ext i hi
  simp only [← BitVec.getLsbD_eq_getElem, BitVec.getLsbD_append, BitVec.getLsbD_extractLsb']
  rcases Nat.lt_or_ge i 8 with h | h
  · simp [h]
  rcases Nat.lt_or_ge i 16 with h' | h'
  · have e : 8 + (i - 8) = i := by omega
    simp [show ¬ i < 8 by omega, show i - 8 < 8 by omega, e]
  rcases Nat.lt_or_ge i 24 with h'' | h''
  · have e : 16 + (i - 16) = i := by omega
    simp [show ¬ i < 8 by omega, show ¬ i - 8 < 8 by omega, show i - 8 - 8 = i - 16 by omega,
      show i - 16 < 8 by omega, e]
  · have e : 24 + (i - 24) = i := by omega
    simp [show ¬ i < 8 by omega, show ¬ i - 8 < 8 by omega, show i - 8 - 8 = i - 16 by omega,
      show ¬ i - 16 < 8 by omega, show i - 16 - 8 = i - 24 by omega, show i - 24 < 8 by omega, e]

/-- The decoder on the bytes of a word reads that word. -/
theorem decode_wordBytes (d : Word) (rest : List Byte) :
    decode (wordBytes d ++ rest) = .ok (decodeWord d, rest) := by
  simp [wordBytes, decode, bytesWord_wordBytes]

/-- What the decoder reads of a table word. -/
theorem decodeTableWord_eq (nbits w : Nat) : decodeTableWord nbits w = some (decodeWord (tableWord nbits w)) := by
  have h := decode_wordBytes (tableWord nbits w) []
  simp only [List.append_nil] at h
  simp [decodeTableWord, h]

end Sys2Proof.Laws
end

