-- ==== Sys2Proof/Laws/State.lean ====
section
/-! SUPPORT. One lemma per field of State per shared update, so that no later proof unfolds a record update. -/

namespace Sys2Proof.Machine

variable (s : State)

/-! The fields after `State.accept`. -/

@[simp] theorem State.accept_cfg (op : BitVec 4) : (s.accept op).cfg = s.cfg := rfl
@[simp] theorem State.accept_rstN (op : BitVec 4) : (s.accept op).rstN = s.rstN := rfl
@[simp] theorem State.accept_ctrlOp (op : BitVec 4) : (s.accept op).ctrlOp = op := rfl
@[simp] theorem State.accept_done (op : BitVec 4) : (s.accept op).done = false := rfl
@[simp] theorem State.accept_rej (op : BitVec 4) : (s.accept op).rej = s.rej := rfl
@[simp] theorem State.accept_fatal (op : BitVec 4) : (s.accept op).fatal = s.fatal := rfl
@[simp] theorem State.accept_oncurve (op : BitVec 4) : (s.accept op).oncurve = s.oncurve := rfl
@[simp] theorem State.accept_err (op : BitVec 4) : (s.accept op).err = .none := rfl
@[simp] theorem State.accept_doneIe (op : BitVec 4) : (s.accept op).doneIe = s.doneIe := rfl
@[simp] theorem State.accept_inf1 (op : BitVec 4) : (s.accept op).inf1 = s.inf1 := rfl
@[simp] theorem State.accept_inf2 (op : BitVec 4) : (s.accept op).inf2 = s.inf2 := rfl
@[simp] theorem State.accept_kneg (op : BitVec 4) : (s.accept op).kneg = s.kneg := rfl
@[simp] theorem State.accept_rInf (op : BitVec 4) : (s.accept op).rInf = s.rInf := rfl
@[simp] theorem State.accept_regs (op : BitVec 4) : (s.accept op).regs = s.regs := rfl
@[simp] theorem State.accept_eng (op : BitVec 4) : (s.accept op).eng = .busy { snap := s.snapshot op, work := (s.snapshot op).startWork, latLeft := Config.latency s.cfg s.draws (s.snapshot op) } := rfl
@[simp] theorem State.accept_inbox (op : BitVec 4) : (s.accept op).inbox = s.inbox := rfl
@[simp] theorem State.accept_resp (op : BitVec 4) : (s.accept op).resp = s.resp := rfl
@[simp] theorem State.accept_draws (op : BitVec 4) : (s.accept op).draws = s.draws + 1 := rfl

/-! The fields after `State.reject`. -/

@[simp] theorem State.reject_cfg (op : BitVec 4) : (s.reject op).cfg = s.cfg := rfl
@[simp] theorem State.reject_rstN (op : BitVec 4) : (s.reject op).rstN = s.rstN := rfl
@[simp] theorem State.reject_ctrlOp (op : BitVec 4) : (s.reject op).ctrlOp = op := rfl
@[simp] theorem State.reject_done (op : BitVec 4) : (s.reject op).done = s.done := rfl
@[simp] theorem State.reject_rej (op : BitVec 4) : (s.reject op).rej = true := rfl
@[simp] theorem State.reject_fatal (op : BitVec 4) : (s.reject op).fatal = s.fatal := rfl
@[simp] theorem State.reject_oncurve (op : BitVec 4) : (s.reject op).oncurve = s.oncurve := rfl
@[simp] theorem State.reject_err (op : BitVec 4) : (s.reject op).err = s.err := rfl
@[simp] theorem State.reject_doneIe (op : BitVec 4) : (s.reject op).doneIe = s.doneIe := rfl
@[simp] theorem State.reject_inf1 (op : BitVec 4) : (s.reject op).inf1 = s.inf1 := rfl
@[simp] theorem State.reject_inf2 (op : BitVec 4) : (s.reject op).inf2 = s.inf2 := rfl
@[simp] theorem State.reject_kneg (op : BitVec 4) : (s.reject op).kneg = s.kneg := rfl
@[simp] theorem State.reject_rInf (op : BitVec 4) : (s.reject op).rInf = s.rInf := rfl
@[simp] theorem State.reject_regs (op : BitVec 4) : (s.reject op).regs = s.regs := rfl
@[simp] theorem State.reject_eng (op : BitVec 4) : (s.reject op).eng = s.eng := rfl
@[simp] theorem State.reject_inbox (op : BitVec 4) : (s.reject op).inbox = s.inbox := rfl
@[simp] theorem State.reject_resp (op : BitVec 4) : (s.reject op).resp = s.resp := rfl
@[simp] theorem State.reject_draws (op : BitVec 4) : (s.reject op).draws = s.draws := rfl

/-! The fields after `State.reportError`. -/

@[simp] theorem State.reportError_cfg (e : ErrCode) : (s.reportError e).cfg = s.cfg := rfl
@[simp] theorem State.reportError_rstN (e : ErrCode) : (s.reportError e).rstN = s.rstN := rfl
@[simp] theorem State.reportError_ctrlOp (e : ErrCode) : (s.reportError e).ctrlOp = s.ctrlOp := rfl
@[simp] theorem State.reportError_done (e : ErrCode) : (s.reportError e).done = s.done := rfl
@[simp] theorem State.reportError_rej (e : ErrCode) : (s.reportError e).rej = s.rej := rfl
@[simp] theorem State.reportError_fatal (e : ErrCode) : (s.reportError e).fatal = (s.fatal || decide (e = .fatal)) := rfl
@[simp] theorem State.reportError_oncurve (e : ErrCode) : (s.reportError e).oncurve = s.oncurve := rfl
@[simp] theorem State.reportError_err (e : ErrCode) : (s.reportError e).err = e := rfl
@[simp] theorem State.reportError_doneIe (e : ErrCode) : (s.reportError e).doneIe = s.doneIe := rfl
@[simp] theorem State.reportError_inf1 (e : ErrCode) : (s.reportError e).inf1 = s.inf1 := rfl
@[simp] theorem State.reportError_inf2 (e : ErrCode) : (s.reportError e).inf2 = s.inf2 := rfl
@[simp] theorem State.reportError_kneg (e : ErrCode) : (s.reportError e).kneg = s.kneg := rfl
@[simp] theorem State.reportError_rInf (e : ErrCode) : (s.reportError e).rInf = s.rInf := rfl
@[simp] theorem State.reportError_regs (e : ErrCode) : (s.reportError e).regs = s.regs := rfl
@[simp] theorem State.reportError_eng (e : ErrCode) : (s.reportError e).eng = s.eng := rfl
@[simp] theorem State.reportError_inbox (e : ErrCode) : (s.reportError e).inbox = s.inbox := rfl
@[simp] theorem State.reportError_resp (e : ErrCode) : (s.reportError e).resp = s.resp := rfl
@[simp] theorem State.reportError_draws (e : ErrCode) : (s.reportError e).draws = s.draws := rfl

/-! The fields after `State.finish`. -/

@[simp] theorem State.finish_cfg : s.finish.cfg = s.cfg := rfl
@[simp] theorem State.finish_rstN : s.finish.rstN = s.rstN := rfl
@[simp] theorem State.finish_ctrlOp : s.finish.ctrlOp = s.ctrlOp := rfl
@[simp] theorem State.finish_done : s.finish.done = true := rfl
@[simp] theorem State.finish_rej : s.finish.rej = s.rej := rfl
@[simp] theorem State.finish_fatal : s.finish.fatal = s.fatal := rfl
@[simp] theorem State.finish_oncurve : s.finish.oncurve = s.oncurve := rfl
@[simp] theorem State.finish_err : s.finish.err = s.err := rfl
@[simp] theorem State.finish_doneIe : s.finish.doneIe = s.doneIe := rfl
@[simp] theorem State.finish_inf1 : s.finish.inf1 = s.inf1 := rfl
@[simp] theorem State.finish_inf2 : s.finish.inf2 = s.inf2 := rfl
@[simp] theorem State.finish_kneg : s.finish.kneg = s.kneg := rfl
@[simp] theorem State.finish_rInf : s.finish.rInf = s.rInf := rfl
@[simp] theorem State.finish_regs : s.finish.regs = s.regs := rfl
@[simp] theorem State.finish_eng : s.finish.eng = .idle := rfl
@[simp] theorem State.finish_inbox : s.finish.inbox = s.inbox := rfl
@[simp] theorem State.finish_resp : s.finish.resp = s.resp := rfl
@[simp] theorem State.finish_draws : s.finish.draws = s.draws := rfl

/-! The fields after `State.respond`. -/

@[simp] theorem State.respond_cfg (r : BusResp) : (s.respond r).cfg = s.cfg := rfl
@[simp] theorem State.respond_rstN (r : BusResp) : (s.respond r).rstN = s.rstN := rfl
@[simp] theorem State.respond_ctrlOp (r : BusResp) : (s.respond r).ctrlOp = s.ctrlOp := rfl
@[simp] theorem State.respond_done (r : BusResp) : (s.respond r).done = s.done := rfl
@[simp] theorem State.respond_rej (r : BusResp) : (s.respond r).rej = s.rej := rfl
@[simp] theorem State.respond_fatal (r : BusResp) : (s.respond r).fatal = s.fatal := rfl
@[simp] theorem State.respond_oncurve (r : BusResp) : (s.respond r).oncurve = s.oncurve := rfl
@[simp] theorem State.respond_err (r : BusResp) : (s.respond r).err = s.err := rfl
@[simp] theorem State.respond_doneIe (r : BusResp) : (s.respond r).doneIe = s.doneIe := rfl
@[simp] theorem State.respond_inf1 (r : BusResp) : (s.respond r).inf1 = s.inf1 := rfl
@[simp] theorem State.respond_inf2 (r : BusResp) : (s.respond r).inf2 = s.inf2 := rfl
@[simp] theorem State.respond_kneg (r : BusResp) : (s.respond r).kneg = s.kneg := rfl
@[simp] theorem State.respond_rInf (r : BusResp) : (s.respond r).rInf = s.rInf := rfl
@[simp] theorem State.respond_regs (r : BusResp) : (s.respond r).regs = s.regs := rfl
@[simp] theorem State.respond_eng (r : BusResp) : (s.respond r).eng = s.eng := rfl
@[simp] theorem State.respond_inbox (r : BusResp) : (s.respond r).inbox = s.inbox := rfl
@[simp] theorem State.respond_resp (r : BusResp) : (s.respond r).resp = r :: s.resp := rfl
@[simp] theorem State.respond_draws (r : BusResp) : (s.respond r).draws = s.draws := rfl

/-! The fields after `State.writeStatus`. -/

@[simp] theorem State.writeStatus_cfg (d : Word) : (s.writeStatus d).cfg = s.cfg := rfl
@[simp] theorem State.writeStatus_rstN (d : Word) : (s.writeStatus d).rstN = s.rstN := rfl
@[simp] theorem State.writeStatus_ctrlOp (d : Word) : (s.writeStatus d).ctrlOp = s.ctrlOp := rfl
@[simp] theorem State.writeStatus_done (d : Word) : (s.writeStatus d).done = (s.done && !d.getLsbD 1) := rfl
@[simp] theorem State.writeStatus_rej (d : Word) : (s.writeStatus d).rej = (s.rej && !d.getLsbD 2) := rfl
@[simp] theorem State.writeStatus_fatal (d : Word) : (s.writeStatus d).fatal = s.fatal := rfl
@[simp] theorem State.writeStatus_oncurve (d : Word) : (s.writeStatus d).oncurve = s.oncurve := rfl
@[simp] theorem State.writeStatus_err (d : Word) : (s.writeStatus d).err = s.err := rfl
@[simp] theorem State.writeStatus_doneIe (d : Word) : (s.writeStatus d).doneIe = s.doneIe := rfl
@[simp] theorem State.writeStatus_inf1 (d : Word) : (s.writeStatus d).inf1 = s.inf1 := rfl
@[simp] theorem State.writeStatus_inf2 (d : Word) : (s.writeStatus d).inf2 = s.inf2 := rfl
@[simp] theorem State.writeStatus_kneg (d : Word) : (s.writeStatus d).kneg = s.kneg := rfl
@[simp] theorem State.writeStatus_rInf (d : Word) : (s.writeStatus d).rInf = s.rInf := rfl
@[simp] theorem State.writeStatus_regs (d : Word) : (s.writeStatus d).regs = s.regs := rfl
@[simp] theorem State.writeStatus_eng (d : Word) : (s.writeStatus d).eng = s.eng := rfl
@[simp] theorem State.writeStatus_inbox (d : Word) : (s.writeStatus d).inbox = s.inbox := rfl
@[simp] theorem State.writeStatus_resp (d : Word) : (s.writeStatus d).resp = s.resp := rfl
@[simp] theorem State.writeStatus_draws (d : Word) : (s.writeStatus d).draws = s.draws := rfl

/-! The fields after `State.writeInten`. -/

@[simp] theorem State.writeInten_cfg (d : Word) : (s.writeInten d).cfg = s.cfg := rfl
@[simp] theorem State.writeInten_rstN (d : Word) : (s.writeInten d).rstN = s.rstN := rfl
@[simp] theorem State.writeInten_ctrlOp (d : Word) : (s.writeInten d).ctrlOp = s.ctrlOp := rfl
@[simp] theorem State.writeInten_done (d : Word) : (s.writeInten d).done = s.done := rfl
@[simp] theorem State.writeInten_rej (d : Word) : (s.writeInten d).rej = s.rej := rfl
@[simp] theorem State.writeInten_fatal (d : Word) : (s.writeInten d).fatal = s.fatal := rfl
@[simp] theorem State.writeInten_oncurve (d : Word) : (s.writeInten d).oncurve = s.oncurve := rfl
@[simp] theorem State.writeInten_err (d : Word) : (s.writeInten d).err = s.err := rfl
@[simp] theorem State.writeInten_doneIe (d : Word) : (s.writeInten d).doneIe = d.getLsbD 0 := rfl
@[simp] theorem State.writeInten_inf1 (d : Word) : (s.writeInten d).inf1 = s.inf1 := rfl
@[simp] theorem State.writeInten_inf2 (d : Word) : (s.writeInten d).inf2 = s.inf2 := rfl
@[simp] theorem State.writeInten_kneg (d : Word) : (s.writeInten d).kneg = s.kneg := rfl
@[simp] theorem State.writeInten_rInf (d : Word) : (s.writeInten d).rInf = s.rInf := rfl
@[simp] theorem State.writeInten_regs (d : Word) : (s.writeInten d).regs = s.regs := rfl
@[simp] theorem State.writeInten_eng (d : Word) : (s.writeInten d).eng = s.eng := rfl
@[simp] theorem State.writeInten_inbox (d : Word) : (s.writeInten d).inbox = s.inbox := rfl
@[simp] theorem State.writeInten_resp (d : Word) : (s.writeInten d).resp = s.resp := rfl
@[simp] theorem State.writeInten_draws (d : Word) : (s.writeInten d).draws = s.draws := rfl

/-! The fields after `State.writePtflags`. -/

@[simp] theorem State.writePtflags_cfg (d : Word) : (s.writePtflags d).cfg = s.cfg := rfl
@[simp] theorem State.writePtflags_rstN (d : Word) : (s.writePtflags d).rstN = s.rstN := rfl
@[simp] theorem State.writePtflags_ctrlOp (d : Word) : (s.writePtflags d).ctrlOp = s.ctrlOp := rfl
@[simp] theorem State.writePtflags_done (d : Word) : (s.writePtflags d).done = s.done := rfl
@[simp] theorem State.writePtflags_rej (d : Word) : (s.writePtflags d).rej = s.rej := rfl
@[simp] theorem State.writePtflags_fatal (d : Word) : (s.writePtflags d).fatal = s.fatal := rfl
@[simp] theorem State.writePtflags_oncurve (d : Word) : (s.writePtflags d).oncurve = s.oncurve := rfl
@[simp] theorem State.writePtflags_err (d : Word) : (s.writePtflags d).err = s.err := rfl
@[simp] theorem State.writePtflags_doneIe (d : Word) : (s.writePtflags d).doneIe = s.doneIe := rfl
@[simp] theorem State.writePtflags_inf1 (d : Word) : (s.writePtflags d).inf1 = d.getLsbD 0 := rfl
@[simp] theorem State.writePtflags_inf2 (d : Word) : (s.writePtflags d).inf2 = d.getLsbD 1 := rfl
@[simp] theorem State.writePtflags_kneg (d : Word) : (s.writePtflags d).kneg = d.getLsbD 2 := rfl
@[simp] theorem State.writePtflags_rInf (d : Word) : (s.writePtflags d).rInf = s.rInf := rfl
@[simp] theorem State.writePtflags_regs (d : Word) : (s.writePtflags d).regs = s.regs := rfl
@[simp] theorem State.writePtflags_eng (d : Word) : (s.writePtflags d).eng = s.eng := rfl
@[simp] theorem State.writePtflags_inbox (d : Word) : (s.writePtflags d).inbox = s.inbox := rfl
@[simp] theorem State.writePtflags_resp (d : Word) : (s.writePtflags d).resp = s.resp := rfl
@[simp] theorem State.writePtflags_draws (d : Word) : (s.writePtflags d).draws = s.draws := rfl

/-! The fields after `State.withCtrlWrite`. -/

@[simp] theorem State.withCtrlWrite_cfg (d : Word) : (s.withCtrlWrite d).cfg = s.cfg := rfl
@[simp] theorem State.withCtrlWrite_rstN (d : Word) : (s.withCtrlWrite d).rstN = true := rfl
@[simp] theorem State.withCtrlWrite_ctrlOp (d : Word) : (s.withCtrlWrite d).ctrlOp = s.ctrlOp := rfl
@[simp] theorem State.withCtrlWrite_done (d : Word) : (s.withCtrlWrite d).done = s.done := rfl
@[simp] theorem State.withCtrlWrite_rej (d : Word) : (s.withCtrlWrite d).rej = s.rej := rfl
@[simp] theorem State.withCtrlWrite_fatal (d : Word) : (s.withCtrlWrite d).fatal = s.fatal := rfl
@[simp] theorem State.withCtrlWrite_oncurve (d : Word) : (s.withCtrlWrite d).oncurve = s.oncurve := rfl
@[simp] theorem State.withCtrlWrite_err (d : Word) : (s.withCtrlWrite d).err = s.err := rfl
@[simp] theorem State.withCtrlWrite_doneIe (d : Word) : (s.withCtrlWrite d).doneIe = s.doneIe := rfl
@[simp] theorem State.withCtrlWrite_inf1 (d : Word) : (s.withCtrlWrite d).inf1 = s.inf1 := rfl
@[simp] theorem State.withCtrlWrite_inf2 (d : Word) : (s.withCtrlWrite d).inf2 = s.inf2 := rfl
@[simp] theorem State.withCtrlWrite_kneg (d : Word) : (s.withCtrlWrite d).kneg = s.kneg := rfl
@[simp] theorem State.withCtrlWrite_rInf (d : Word) : (s.withCtrlWrite d).rInf = s.rInf := rfl
@[simp] theorem State.withCtrlWrite_regs (d : Word) : (s.withCtrlWrite d).regs = s.regs := rfl
@[simp] theorem State.withCtrlWrite_eng (d : Word) : (s.withCtrlWrite d).eng = s.eng.delay := rfl
@[simp] theorem State.withCtrlWrite_inbox (d : Word) : (s.withCtrlWrite d).inbox = ctrlWrite s.cfg d :: s.inbox := rfl
@[simp] theorem State.withCtrlWrite_resp (d : Word) : (s.withCtrlWrite d).resp = s.resp := rfl
@[simp] theorem State.withCtrlWrite_draws (d : Word) : (s.withCtrlWrite d).draws = s.draws := rfl

/-! The fields after `State.resetCore`. -/

@[simp] theorem State.resetCore_cfg : s.resetCore.cfg = s.cfg := rfl
@[simp] theorem State.resetCore_rstN : s.resetCore.rstN = s.rstN := rfl
@[simp] theorem State.resetCore_ctrlOp : s.resetCore.ctrlOp = 0 := rfl
@[simp] theorem State.resetCore_done : s.resetCore.done = false := rfl
@[simp] theorem State.resetCore_rej : s.resetCore.rej = false := rfl
@[simp] theorem State.resetCore_fatal : s.resetCore.fatal = false := rfl
@[simp] theorem State.resetCore_oncurve : s.resetCore.oncurve = false := rfl
@[simp] theorem State.resetCore_err : s.resetCore.err = .none := rfl
@[simp] theorem State.resetCore_doneIe : s.resetCore.doneIe = false := rfl
@[simp] theorem State.resetCore_inf1 : s.resetCore.inf1 = false := rfl
@[simp] theorem State.resetCore_inf2 : s.resetCore.inf2 = false := rfl
@[simp] theorem State.resetCore_kneg : s.resetCore.kneg = false := rfl
@[simp] theorem State.resetCore_rInf : s.resetCore.rInf = false := rfl
@[simp] theorem State.resetCore_regs : s.resetCore.regs = RegFile.zero := rfl
@[simp] theorem State.resetCore_eng : s.resetCore.eng = .idle := rfl
@[simp] theorem State.resetCore_inbox : s.resetCore.inbox = s.inbox := rfl
@[simp] theorem State.resetCore_resp : s.resetCore.resp = s.resp := rfl
@[simp] theorem State.resetCore_draws : s.resetCore.draws = s.draws := rfl

/-! The fields after `State.commitPoint` and `State.commit`: only the result registers, R_INF and ONCURVE move. -/

@[simp] theorem State.commitPoint_cfg (q : Pt) : (s.commitPoint q).cfg = s.cfg := by cases q <;> rfl
@[simp] theorem State.commitPoint_rstN (q : Pt) : (s.commitPoint q).rstN = s.rstN := by cases q <;> rfl
@[simp] theorem State.commitPoint_ctrlOp (q : Pt) : (s.commitPoint q).ctrlOp = s.ctrlOp := by cases q <;> rfl
@[simp] theorem State.commitPoint_done (q : Pt) : (s.commitPoint q).done = s.done := by cases q <;> rfl
@[simp] theorem State.commitPoint_rej (q : Pt) : (s.commitPoint q).rej = s.rej := by cases q <;> rfl
@[simp] theorem State.commitPoint_fatal (q : Pt) : (s.commitPoint q).fatal = s.fatal := by cases q <;> rfl
@[simp] theorem State.commitPoint_oncurve (q : Pt) : (s.commitPoint q).oncurve = s.oncurve := by cases q <;> rfl
@[simp] theorem State.commitPoint_err (q : Pt) : (s.commitPoint q).err = s.err := by cases q <;> rfl
@[simp] theorem State.commitPoint_doneIe (q : Pt) : (s.commitPoint q).doneIe = s.doneIe := by cases q <;> rfl
@[simp] theorem State.commitPoint_inf1 (q : Pt) : (s.commitPoint q).inf1 = s.inf1 := by cases q <;> rfl
@[simp] theorem State.commitPoint_inf2 (q : Pt) : (s.commitPoint q).inf2 = s.inf2 := by cases q <;> rfl
@[simp] theorem State.commitPoint_kneg (q : Pt) : (s.commitPoint q).kneg = s.kneg := by cases q <;> rfl
@[simp] theorem State.commitPoint_eng (q : Pt) : (s.commitPoint q).eng = s.eng := by cases q <;> rfl
@[simp] theorem State.commitPoint_inbox (q : Pt) : (s.commitPoint q).inbox = s.inbox := by cases q <;> rfl
@[simp] theorem State.commitPoint_resp (q : Pt) : (s.commitPoint q).resp = s.resp := by cases q <;> rfl
@[simp] theorem State.commitPoint_draws (q : Pt) : (s.commitPoint q).draws = s.draws := by cases q <;> rfl

@[simp] theorem State.commit_cfg (res : Result) : (s.commit res).cfg = s.cfg := by
  cases res <;> simp [State.commit]
@[simp] theorem State.commit_rstN (res : Result) : (s.commit res).rstN = s.rstN := by
  cases res <;> simp [State.commit]
@[simp] theorem State.commit_ctrlOp (res : Result) : (s.commit res).ctrlOp = s.ctrlOp := by
  cases res <;> simp [State.commit]
@[simp] theorem State.commit_done (res : Result) : (s.commit res).done = s.done := by
  cases res <;> simp [State.commit]
@[simp] theorem State.commit_rej (res : Result) : (s.commit res).rej = s.rej := by
  cases res <;> simp [State.commit]
@[simp] theorem State.commit_fatal (res : Result) : (s.commit res).fatal = s.fatal := by
  cases res <;> simp [State.commit]
@[simp] theorem State.commit_err (res : Result) : (s.commit res).err = s.err := by
  cases res <;> simp [State.commit]
@[simp] theorem State.commit_doneIe (res : Result) : (s.commit res).doneIe = s.doneIe := by
  cases res <;> simp [State.commit]
@[simp] theorem State.commit_inf1 (res : Result) : (s.commit res).inf1 = s.inf1 := by
  cases res <;> simp [State.commit]
@[simp] theorem State.commit_inf2 (res : Result) : (s.commit res).inf2 = s.inf2 := by
  cases res <;> simp [State.commit]
@[simp] theorem State.commit_kneg (res : Result) : (s.commit res).kneg = s.kneg := by
  cases res <;> simp [State.commit]
@[simp] theorem State.commit_eng (res : Result) : (s.commit res).eng = s.eng := by
  cases res <;> simp [State.commit]
@[simp] theorem State.commit_inbox (res : Result) : (s.commit res).inbox = s.inbox := by
  cases res <;> simp [State.commit]
@[simp] theorem State.commit_resp (res : Result) : (s.commit res).resp = s.resp := by
  cases res <;> simp [State.commit]
@[simp] theorem State.commit_draws (res : Result) : (s.commit res).draws = s.draws := by
  cases res <;> simp [State.commit]

/-! The fields after `State.tick`: only the engine's hidden state and the draw counter move. -/

@[simp] theorem State.tick_cfg : s.tick.cfg = s.cfg := by unfold State.tick; split <;> rfl
@[simp] theorem State.tick_rstN : s.tick.rstN = s.rstN := by unfold State.tick; split <;> rfl
@[simp] theorem State.tick_ctrlOp : s.tick.ctrlOp = s.ctrlOp := by unfold State.tick; split <;> rfl
@[simp] theorem State.tick_done : s.tick.done = s.done := by unfold State.tick; split <;> rfl
@[simp] theorem State.tick_rej : s.tick.rej = s.rej := by unfold State.tick; split <;> rfl
@[simp] theorem State.tick_fatal : s.tick.fatal = s.fatal := by unfold State.tick; split <;> rfl
@[simp] theorem State.tick_oncurve : s.tick.oncurve = s.oncurve := by unfold State.tick; split <;> rfl
@[simp] theorem State.tick_err : s.tick.err = s.err := by unfold State.tick; split <;> rfl
@[simp] theorem State.tick_doneIe : s.tick.doneIe = s.doneIe := by unfold State.tick; split <;> rfl
@[simp] theorem State.tick_inf1 : s.tick.inf1 = s.inf1 := by unfold State.tick; split <;> rfl
@[simp] theorem State.tick_inf2 : s.tick.inf2 = s.inf2 := by unfold State.tick; split <;> rfl
@[simp] theorem State.tick_kneg : s.tick.kneg = s.kneg := by unfold State.tick; split <;> rfl
@[simp] theorem State.tick_rInf : s.tick.rInf = s.rInf := by unfold State.tick; split <;> rfl
@[simp] theorem State.tick_regs : s.tick.regs = s.regs := by unfold State.tick; split <;> rfl
@[simp] theorem State.tick_inbox : s.tick.inbox = s.inbox := by unfold State.tick; split <;> rfl
@[simp] theorem State.tick_resp : s.tick.resp = s.resp := by unfold State.tick; split <;> rfl

/-! The fields after `State.writeLoc`: the register file, and what the control registers' own writes change. -/

@[simp] theorem State.writeLoc_cfg (l : Loc) (d : Word) : (s.writeLoc l d).cfg = s.cfg := by
  cases l <;> simp only [State.writeLoc] <;> (try split) <;> rfl
@[simp] theorem State.writeLoc_rstN (l : Loc) (d : Word) : (s.writeLoc l d).rstN = s.rstN := by
  cases l <;> simp only [State.writeLoc] <;> (try split) <;> rfl
@[simp] theorem State.writeLoc_ctrlOp (l : Loc) (d : Word) : (s.writeLoc l d).ctrlOp = s.ctrlOp := by
  cases l <;> simp only [State.writeLoc] <;> (try split) <;> rfl
@[simp] theorem State.writeLoc_fatal (l : Loc) (d : Word) : (s.writeLoc l d).fatal = s.fatal := by
  cases l <;> simp only [State.writeLoc] <;> (try split) <;> rfl
@[simp] theorem State.writeLoc_oncurve (l : Loc) (d : Word) : (s.writeLoc l d).oncurve = s.oncurve := by
  cases l <;> simp only [State.writeLoc] <;> (try split) <;> rfl
@[simp] theorem State.writeLoc_err (l : Loc) (d : Word) : (s.writeLoc l d).err = s.err := by
  cases l <;> simp only [State.writeLoc] <;> (try split) <;> rfl
@[simp] theorem State.writeLoc_rInf (l : Loc) (d : Word) : (s.writeLoc l d).rInf = s.rInf := by
  cases l <;> simp only [State.writeLoc] <;> (try split) <;> rfl
@[simp] theorem State.writeLoc_eng (l : Loc) (d : Word) : (s.writeLoc l d).eng = s.eng := by
  cases l <;> simp only [State.writeLoc] <;> (try split) <;> rfl
@[simp] theorem State.writeLoc_inbox (l : Loc) (d : Word) : (s.writeLoc l d).inbox = s.inbox := by
  cases l <;> simp only [State.writeLoc] <;> (try split) <;> rfl
@[simp] theorem State.writeLoc_resp (l : Loc) (d : Word) : (s.writeLoc l d).resp = s.resp := by
  cases l <;> simp only [State.writeLoc] <;> (try split) <;> rfl
@[simp] theorem State.writeLoc_draws (l : Loc) (d : Word) : (s.writeLoc l d).draws = s.draws := by
  cases l <;> simp only [State.writeLoc] <;> (try split) <;> rfl

/-! The operand registers. -/

@[simp] theorem RegFile.get_set (f : RegFile) (r r' : Reg) (v : Operand) :
    (f.set r v).get r' = if r' = r then v else f.get r' := by
  cases r <;> cases r' <;> rfl

@[simp] theorem RegFile.get_zero (r : Reg) : RegFile.zero.get r = 0 := by cases r <;> rfl

theorem RegFile.ext_get {f g : RegFile} (h : ∀ r, f.get r = g.get r) : f = g := by
  cases f; cases g
  have ha := h .a; have hb := h .b; have hp := h .p; have hx1 := h .x1; have hy1 := h .y1
  have hx2 := h .x2; have hy2 := h .y2; have hk := h .k; have hx3 := h .x3; have hy3 := h .y3
  simp only [RegFile.get] at *
  subst_vars
  rfl

@[simp] theorem Engine.delay_isBusy (e : Engine) : e.delay.isBusy = e.isBusy := by cases e <;> rfl

@[simp] theorem State.tick_busy : s.tick.busy = s.busy := by
  unfold State.tick State.busy
  split
  · rfl
  · next h => simp [h, Engine.isBusy]

end Sys2Proof.Machine
end

