-- ==== Sys2Proof/Laws/Bus.lean ====
section
/-! SUPPORT. The bus: the bits of an operand word, the map, and everything a host action can do. -/

namespace Sys2Proof.Laws

open Sys2Proof.Machine

theorem getLsbD_lowBits (w : Nat) (v : Operand) (i : Nat) :
    (lowBits w v).getLsbD i = (decide (i < 1024) && decide (i < w) && v.getLsbD i) := by
  unfold lowBits
  simp only [BitVec.getLsbD_setWidth]
  cases h1 : decide (i < w) <;> simp

/-- A masked register holds a value below 2^W (10_state R22). -/
theorem lowBits_toNat_lt (w : Nat) (v : Operand) : (lowBits w v).toNat < 2 ^ w := by
  unfold lowBits
  rw [BitVec.toNat_setWidth]
  exact Nat.lt_of_le_of_lt (Nat.mod_le _ _) (v.setWidth w).isLt

/-- Masking a value below 2^W leaves it alone. -/
theorem lowBits_of_lt {w : Nat} {v : Operand} (h : v.toNat < 2 ^ w) : lowBits w v = v := by
  unfold lowBits
  apply BitVec.eq_of_toNat_eq
  rw [BitVec.toNat_setWidth, BitVec.toNat_setWidth, Nat.mod_eq_of_lt h, Nat.mod_eq_of_lt v.isLt]

theorem getLsbD_wordOf (v : Operand) (j i : Nat) :
    (wordOf v j).getLsbD i = (decide (i < 32) && v.getLsbD (32 * j + i)) := by
  unfold wordOf; exact BitVec.getLsbD_extractLsb' ..

theorem getLsbD_withWord (v : Operand) (j : Nat) (d : Word) (i : Nat) (hi : i < 1024) :
    (withWord v j d).getLsbD i = if 32 * j ≤ i ∧ i < 32 * j + 32 then d.getLsbD (i - 32 * j) else v.getLsbD i := by
  unfold withWord
  simp only [BitVec.getLsbD_or, BitVec.getLsbD_and, BitVec.getLsbD_not, BitVec.getLsbD_shiftLeft,
    BitVec.getLsbD_setWidth, BitVec.getLsbD_allOnes]
  split
  · next h =>
    simp [hi, show ¬ i < 32 * j by omega, show i - 32 * j < 1024 by omega, show i - 32 * j < 32 by omega]
  · next h =>
    by_cases hj : i < 32 * j
    · simp [hi, hj]
    · have hge : 32 ≤ i - 32 * j := by omega
      simp [hi, hj, show ¬ i - 32 * j < 32 by omega, BitVec.getLsbD_of_ge d _ hge]

/-- The written word reads back, less the bits at or above W (10_state R22, R24). -/
theorem operandWord_written (c : Config) (hc : c.w ≤ 1024) (v : Operand) (j : Nat) (d : Word) (hj : j < c.nw) :
    operandWord c (operandWithWord c v j d) j = d &&& BitVec.ofNat 32 (2 ^ (c.w - 32 * j) - 1) := by
  unfold operandWord operandWithWord
  rw [if_pos hj]
  unfold Config.nw at hj
  ext i hi
  simp only [← BitVec.getLsbD_eq_getElem, getLsbD_wordOf, getLsbD_lowBits, BitVec.getLsbD_and, BitVec.getLsbD_ofNat,
    Nat.testBit_two_pow_sub_one, hi, decide_true, Bool.true_and]
  by_cases h : 32 * j + i < c.w
  · rw [getLsbD_withWord _ _ _ _ (by omega), if_pos ⟨by omega, by omega⟩]
    simp [h, show 32 * j + i < 1024 by omega, show i < c.w - 32 * j by omega]
  · simp [h, show ¬ i < c.w - 32 * j by omega]

/-- The other words of the register read as before. -/
theorem operandWord_other (c : Config) (v : Operand) (j j' : Nat) (d : Word) (h : j' ≠ j) :
    operandWord c (operandWithWord c v j d) j' = operandWord c v j' := by
  unfold operandWord operandWithWord
  split
  · ext i hi
    simp only [← BitVec.getLsbD_eq_getElem, getLsbD_wordOf, getLsbD_lowBits, hi, decide_true, Bool.true_and]
    by_cases hb : 32 * j' + i < 1024
    · rw [getLsbD_withWord _ _ _ _ hb, if_neg (by omega)]
      simp [hb]
    · simp [hb]
  · rfl

/-- The aligned words of a window (10_state R20, R21). -/
theorem locate_word (r : Reg) (j : Fin 32) : locate (BitVec.ofNat 12 (r.window + 4 * j.val)) = .word r j.val := by
  revert j
  cases r <;> decide

/-- Every action of the host ends in a next state, or stops outside the window; a write of CTRL runs its instruction. -/
theorem exec_next (i : Instr) (s : State) : ∃ t, exec i s = .next t := by
  cases i <;> exact ⟨_, rfl⟩

/-- The next state of an instruction: a request, a reset, or CTRL.OP alone. -/
theorem exec_cases {i : Instr} {s t : State} (h : exec i s = .next t) :
    (∃ op, t = s.request op) ∨ t = s.resetCore ∨ ∃ op, t = { s with ctrlOp := op } := by
  cases i <;> cases h
  all_goals first
    | exact .inl ⟨_, rfl⟩
    | exact .inr (.inl rfl)
    | exact .inr (.inr ⟨_, rfl⟩)

/-- Everything a bus write can do (20_memory R63 to R65). -/
theorem busWrite_cases (s : State) (off : Offset) (d : Word) (strb : BitVec 4) :
    ((aligned off = false ∨ strb ≠ 0b1111) ∧ s.busWrite off d strb = .next (s.respond (.write true))) ∨
    (locate off = .ctrl ∧ ∃ t, exec (decodeWord d) s = .next t ∧
      s.busWrite off d strb = .next (t.respond (.write false))) ∨
    (locate off ≠ .ctrl ∧ s.busWrite off d strb = .next ((s.writeLoc (locate off) d).respond (.write false))) := by
  unfold State.busWrite
  by_cases h : aligned off = true ∧ strb = 0b1111
  · rw [if_pos h]
    by_cases hl : locate off = .ctrl
    · obtain ⟨t, ht⟩ := exec_next (decodeWord d) s
      exact .inr (.inl ⟨hl, t, ht, by rw [if_pos hl, ht]; rfl⟩)
    · exact .inr (.inr ⟨hl, by rw [if_neg hl]⟩)
  · rw [if_neg h]
    refine .inl ⟨?_, rfl⟩
    by_cases ha : aligned off = true
    · exact .inr fun hs => h ⟨ha, hs⟩
    · exact .inl (by simpa using ha)

/-- The window at BASE holds BASE + off for every offset (20_memory R60). -/
theorem windowOffset_base (c : Config) (off : Nat) (h : off < 0x1000) :
    windowOffset c (c.base + off) = some (BitVec.ofNat 12 off) := by
  unfold windowOffset
  rw [if_pos ⟨by omega, by omega⟩]
  simp

/-- Alignment as a fact about the offset's number (20_memory R63). -/
theorem aligned_iff (off : Offset) : aligned off = true ↔ off.toNat % 4 = 0 := by
  unfold aligned
  rw [beq_iff_eq, ← BitVec.toNat_inj]
  simp [BitVec.extractLsb'_toNat]

/-- The words of a window are aligned (10_state R21). -/
theorem aligned_word (r : Reg) (j : Fin 32) : aligned (BitVec.ofNat 12 (r.window + 4 * j.val)) = true := by
  revert j
  cases r <;> decide

/-- Everything a read of word `j` of a window does (10_state R21 to R23). -/
theorem busRead_word (s : State) (r : Reg) {j : Nat} (h : j < 32) :
    s.busRead (BitVec.ofNat 12 (r.window + 4 * j)) = (operandWord s.cfg (s.regs.get r) j, false) := by
  unfold State.busRead
  rw [if_pos (aligned_word r ⟨j, h⟩), locate_word r ⟨j, h⟩]
  rfl

/-- Everything a full write of word `j` of a window does (10_state R21 to R24, 20_memory R65). -/
theorem busWrite_word (s : State) (r : Reg) {j : Nat} (h : j < 32) (d : Word) :
    s.busWrite (BitVec.ofNat 12 (r.window + 4 * j)) d 0b1111 =
      .next ((s.writeLoc (.word r j) d).respond (.write false)) := by
  unfold State.busWrite
  rw [if_pos ⟨aligned_word r ⟨j, h⟩, rfl⟩, locate_word r ⟨j, h⟩, if_neg (by simp)]

/-- A read depends only on what the map shows: an engine tick and the host's side do not change it (20_memory R62). -/
theorem busRead_tick (s : State) (rest : List HostItem) (off : Offset) :
    State.busRead { s.tick with inbox := rest } off = s.busRead off := by
  have hb : s.tick.eng.isBusy = s.eng.isBusy := s.tick_busy
  have hl : ∀ l, State.readLoc { s.tick with inbox := rest } l = s.readLoc l := by
    intro l
    cases l <;> simp only [State.readLoc, cfgWord, ctrlWord, statusWord, intenWord, ptflagsWord, State.busy, hb, State.tick_cfg,
      State.tick_ctrlOp, State.tick_done, State.tick_rej, State.tick_fatal, State.tick_oncurve, State.tick_err,
      State.tick_doneIe, State.tick_inf1, State.tick_inf2, State.tick_kneg, State.tick_rInf, State.tick_regs]
  unfold State.busRead
  rw [hl]

end Sys2Proof.Laws
end

