-- ==== Sys2Proof/Laws/Curve.lean ====
section
/-! SUPPORT. What the point functions answer: points with coordinates in [0, p), or the one error FATAL. -/

namespace Sys2Proof.Laws

open Sys2Proof.Machine

@[simp] theorem inRange_identity (p : Nat) : Pt.inRange p .identity = true := rfl

@[simp] theorem inRange_affine (p x y : Nat) : Pt.inRange p (.affine x y) = true ↔ x < p ∧ y < p := by
  simp [Pt.inRange]

/-- The negative of an in-range point is in range (42_point_ops R123). -/
theorem pneg_inRange {p : Nat} (hp : 0 < p) {q : Pt} (h : q.inRange p = true) : (pneg p q).inRange p = true := by
  cases q with
  | identity => rfl
  | affine x y =>
    rw [inRange_affine] at h
    exact (inRange_affine ..).2 ⟨h.1, residue_lt _ hp⟩

/-- Everything `padd` can do on two affine points (42_point_ops R126 to R128). -/
theorem padd_affine_cases (a p x1 y1 x2 y2 : Nat) :
    ((slopeParts a p x1 y1 x2 y2).2 = 0 ∧ padd a p (.affine x1 y1) (.affine x2 y2) = .ok .identity) ∨
    ((slopeParts a p x1 y1 x2 y2).2 ≠ 0 ∧ finv (slopeParts a p x1 y1 x2 y2).2 p = none ∧
      padd a p (.affine x1 y1) (.affine x2 y2) = .error .fatal) ∨
    (∃ i, (slopeParts a p x1 y1 x2 y2).2 ≠ 0 ∧ finv (slopeParts a p x1 y1 x2 y2).2 p = some i ∧
      padd a p (.affine x1 y1) (.affine x2 y2) =
        .ok (chord p (fmul p (slopeParts a p x1 y1 x2 y2).1 i) x1 y1 x2)) := by
  generalize hs : slopeParts a p x1 y1 x2 y2 = nd
  obtain ⟨num, den⟩ := nd
  by_cases hd : den = 0
  · exact .inl ⟨hd, by simp [padd, hs, hd]⟩
  · cases hf : finv den p with
    | none => exact .inr (.inl ⟨hd, rfl, by simp [padd, hs, hd, hf]⟩)
    | some i => exact .inr (.inr ⟨i, hd, rfl, by simp [padd, hs, hd, hf]⟩)

/-- The only error of the group law is FATAL (42_point_ops R127). -/
theorem padd_error {a p : Nat} {q r : Pt} {e : ErrCode} (h : padd a p q r = .error e) : e = .fatal := by
  cases q with
  | identity => simp [padd] at h
  | affine x1 y1 =>
    cases r with
    | identity => simp [padd] at h
    | affine x2 y2 =>
      obtain ⟨-, h'⟩ | ⟨-, -, h'⟩ | ⟨i, -, -, h'⟩ := padd_affine_cases a p x1 y1 x2 y2 <;> rw [h'] at h
      · cases h
      · cases h; rfl
      · cases h

/-- The sum of in-range points is in range (42_point_ops R128). -/
theorem padd_inRange {a p : Nat} (hp : 0 < p) {q r t : Pt} (hq : q.inRange p = true) (hr : r.inRange p = true)
    (h : padd a p q r = .ok t) : t.inRange p = true := by
  cases q with
  | identity => simp [padd] at h; exact h ▸ hr
  | affine x1 y1 =>
    cases r with
    | identity => simp [padd] at h; exact h ▸ hq
    | affine x2 y2 =>
      obtain ⟨-, h'⟩ | ⟨-, -, h'⟩ | ⟨i, -, -, h'⟩ := padd_affine_cases a p x1 y1 x2 y2 <;> rw [h'] at h <;> cases h
      · rfl
      · exact (inRange_affine ..).2 ⟨residue_lt _ hp, residue_lt _ hp⟩

end Sys2Proof.Laws
end

