-- ==== Sys2Proof/Laws/Scalar.lean ====
section
/-! SUPPORT. The SMUL loop: fuel is never short, one unfolding lemma, and that iterations already done do not change the
end (10_state R44, 43_scalar_multiply R140). -/

namespace Sys2Proof.Laws

open Sys2Proof.Machine

/-- One iteration halves the remaining magnitude. -/
theorem smulIter_n {a p : Nat} {w w' : SmulLoop} (h : smulIter a p w = .ok w') : w'.n = w.n / 2 := by
  unfold smulIter at h
  split at h
  · cases h
  · split at h
    · cases h
    · cases h; rfl

/-- Any fuel that is at least the remaining magnitude runs the loop to its end (43_scalar_multiply R143). -/
theorem smulLoopFuel_enough (a p f : Nat) (w : SmulLoop) (hf : w.n ≤ f) :
    smulLoopFuel a p f w = smulLoop a p w := by
  suffices ∀ f g w, w.n ≤ f → w.n ≤ g → smulLoopFuel a p f w = smulLoopFuel a p g w from
    this f w.n w hf (Nat.le_refl _)
  intro f
  induction f with
  | zero =>
    intro g w hf hg
    have : w.n = 0 := by omega
    cases g <;> simp [smulLoopFuel, this]
  | succ f ih =>
    intro g w hf hg
    cases g with
    | zero =>
      have : w.n = 0 := by omega
      simp [smulLoopFuel, this]
    | succ g =>
      by_cases h : w.n = 0
      · simp [smulLoopFuel, h]
      · simp only [smulLoopFuel, h, if_false]
        cases hi : smulIter a p w with
        | error e => rfl
        | ok w' =>
          have := smulIter_n hi
          exact ih g w' (by omega) (by omega)

/-- A finished loop answers its result. -/
theorem smulLoop_zero (a p : Nat) {w : SmulLoop} (h : w.n = 0) : smulLoop a p w = .ok w.result := by
  simp [smulLoop, h, smulLoopFuel]

/-- The loop, one iteration unfolded (43_scalar_multiply R140). -/
theorem smulLoop_step (a p : Nat) {w : SmulLoop} (h : w.n ≠ 0) :
    smulLoop a p w = match smulIter a p w with
      | .error e => .error e
      | .ok w' => smulLoop a p w' := by
  obtain ⟨f, hf⟩ := Nat.exists_eq_succ_of_ne_zero h
  conv_lhs => rw [smulLoop, hf]
  simp only [smulLoopFuel, h, if_false]
  cases hi : smulIter a p w with
  | error e => rfl
  | ok w' =>
    have := smulIter_n hi
    exact smulLoopFuel_enough a p f w' (by omega)

/-- Iterations already done do not change where the loop ends. -/
theorem smulLoop_advance (a p k : Nat) (w : SmulLoop) : smulLoop a p (smulAdvance a p k w) = smulLoop a p w := by
  induction k generalizing w with
  | zero => rfl
  | succ k ih =>
    by_cases h : w.n = 0
    · simp [smulAdvance, h]
    · simp only [smulAdvance, h, if_false]
      cases hi : smulIter a p w with
      | error e => rfl
      | ok w' => simp only []; rw [ih, smulLoop_step a p h, hi]

/-- `psmul` is the loop from its starting variables (43_scalar_multiply R140). -/
theorem psmul_eq_loop (a p : Nat) (q : Pt) (n : Int) : psmul a p q n = smulLoop a p (psmulStart p q n) := by
  unfold psmul psmulStart
  split <;> unfold dbladd <;> split
  · next h => rw [smulLoop_zero a p (by simp [dbladdStart, h])]; rfl
  · rfl
  · next h => rw [smulLoop_zero a p (by simp [dbladdStart, h])]; rfl
  · rfl

/-- The only error of the loop is FATAL (43_scalar_multiply R141). -/
theorem smulLoop_error {a p : Nat} {w : SmulLoop} {e : ErrCode} (h : smulLoop a p w = .error e) : e = .fatal := by
  induction hn : w.n using Nat.strong_induction_on generalizing w with
  | _ n ih =>
    by_cases h0 : w.n = 0
    · rw [smulLoop_zero a p h0] at h; cases h
    · rw [smulLoop_step a p h0] at h
      cases hi : smulIter a p w with
      | error e' =>
        rw [hi] at h
        cases h
        unfold smulIter at hi
        split at hi
        · next ha =>
          cases hi
          split at ha
          · exact padd_error ha
          · cases ha
        · split at hi
          · next hb => cases hi; exact padd_error hb
          · cases hi
      | ok w' =>
        rw [hi] at h
        exact ih w'.n (by have := smulIter_n hi; omega) h rfl

/-- One iteration keeps result and temp in range. -/
theorem smulIter_inRange {a p : Nat} (hp : 0 < p) {w w' : SmulLoop} (hr : w.result.inRange p = true)
    (ht : w.temp.inRange p = true) (h : smulIter a p w = .ok w') :
    w'.result.inRange p = true ∧ w'.temp.inRange p = true := by
  unfold smulIter at h
  split at h
  · cases h
  next r hr' =>
  split at h
  · cases h
  next t' ht' =>
  cases h
  refine ⟨?_, padd_inRange hp ht ht ht'⟩
  split at hr'
  · exact padd_inRange hp hr ht hr'
  · cases hr'; exact hr

/-- The loop keeps result and temp in range, and so ends in range (10_state R49). -/
theorem smulLoop_inRange {a p : Nat} (hp : 0 < p) {w : SmulLoop} {t : Pt} (hr : w.result.inRange p = true)
    (ht : w.temp.inRange p = true) (h : smulLoop a p w = .ok t) : t.inRange p = true := by
  induction hn : w.n using Nat.strong_induction_on generalizing w with
  | _ n ih =>
    by_cases h0 : w.n = 0
    · rw [smulLoop_zero a p h0] at h; cases h; exact hr
    · rw [smulLoop_step a p h0] at h
      cases hi : smulIter a p w with
      | error e => rw [hi] at h; cases h
      | ok w' =>
        rw [hi] at h
        obtain ⟨hr', ht'⟩ := smulIter_inRange hp hr ht hi
        exact ih w'.n (by have := smulIter_n hi; omega) hr' ht' h rfl

/-- `psmul` answers an in-range point (43_scalar_multiply R140). -/
theorem psmul_inRange {a p : Nat} (hp : 0 < p) {q t : Pt} {n : Int} (hq : q.inRange p = true)
    (h : psmul a p q n = .ok t) : t.inRange p = true := by
  rw [psmul_eq_loop] at h
  unfold psmulStart at h
  split at h
  · exact smulLoop_inRange hp (w := dbladdStart (pneg p q) _) rfl (pneg_inRange hp hq) h
  · exact smulLoop_inRange hp (w := dbladdStart q _) rfl hq h

end Sys2Proof.Laws
end

