-- ==== Sys2Proof/Laws/Ops.lean ====
section
/-! SUPPORT. The shared operations: everything a request, an outcome, a completion and a tick can do. -/

namespace Sys2Proof.Laws

open Sys2Proof.Machine

/-- A request is accepted or rejected (40_command_engine R99). -/
theorem request_cases (s : State) (op : BitVec 4) :
    (s.busy = false ∧ s.fatal = false ∧ s.request op = s.accept op) ∨
    ((s.busy = true ∨ s.fatal = true) ∧ s.request op = s.reject op) := by
  unfold State.request State.canAccept
  cases s.busy <;> cases s.fatal <;> simp

/-- The checks leave a valid opcode only the codes PARAM and RANGE (40_command_engine R102). -/
theorem checkOperands_cases (sn : Snapshot) (c : Command) :
    checkOperands sn c = .none ∨ checkOperands sn c = .param ∨ checkOperands sn c = .range := by
  unfold checkOperands
  split
  · simp
  · split
    · simp
    · split <;> simp

/-- What the checks have established when they pass (40_command_engine R102). -/
theorem checks_passed {sn : Snapshot} {c : Command} (h : checkOperands sn c = .none) :
    2 ≤ sn.p.toNat ∧ (c.checksP1 = true → sn.p1.inRange sn.p.toNat = true) ∧
      (c.checksP2 = true → sn.p2.inRange sn.p.toNat = true) := by
  unfold checkOperands at h
  split at h
  · cases h
  · next hp =>
    split at h
    · cases h
    · next h1 =>
      split at h
      · cases h
      · next h2 => exact ⟨by omega, by simpa using h1, by simpa using h2⟩

/-- A command that starts the SMUL loop ends as `Execute` says (40_command_engine R104, 10_state R44). -/
theorem start_outcome (sn : Snapshot) (n : Nat) :
    Running.outcome { snap := sn, work := sn.startWork, latLeft := n } = execute sn := by
  unfold Running.outcome Snapshot.startWork
  split
  · next w hw =>
    split at hw
    · next h =>
      cases hw
      simp only [execute, h.1, h.2, if_true, runCommand, runSmul, psmul_eq_loop]
    · cases hw
  · rfl

/-- Engine ticks do not change the outcome. -/
theorem advance_outcome (r : Running) (k n : Nat) :
    Running.outcome
        { r with work := r.work.map (smulAdvance r.snap.a.toNat r.snap.p.toNat k), latLeft := n } = r.outcome := by
  obtain ⟨sn, w, l⟩ := r
  cases w with
  | none => rfl
  | some w => simp [Running.outcome, smulLoop_advance]

/-- A point-valued result that `Execute` answers is in range, and an inverse is a residue (10_state R49). -/
theorem execute_result {sn : Snapshot} {res : Result} (h : execute sn = .ok res) :
    (∃ q, res = .point q ∧ q.inRange sn.p.toNat = true) ∨ (∃ x, res = .inverse x ∧ x < sn.p.toNat) ∨
      ∃ b, res = .onCurve b := by
  unfold execute at h
  split at h
  · cases h
  next c hc =>
  split at h
  next hk =>
    obtain ⟨h2, h1, h3⟩ := checks_passed hk
    have hp : 0 < sn.p.toNat := by omega
    cases c
    case inv =>
      simp only [runCommand, runInv] at h
      split at h
      · cases h
      · next x hx => cases h; exact .inr (.inl ⟨x, rfl, finv_lt hp hx⟩)
    case chk => cases h; exact .inr (.inr ⟨_, rfl⟩)
    case neg => cases h; exact .inl ⟨_, rfl, pneg_inRange hp (h1 rfl)⟩
    case add =>
      simp only [runCommand, runAdd, pointResult] at h
      split at h
      · next q hq => cases h; exact .inl ⟨q, rfl, padd_inRange hp (h1 rfl) (h3 rfl) hq⟩
      · cases h
    case dbl =>
      simp only [runCommand, runDbl, pointResult] at h
      split at h
      · next q hq => cases h; exact .inl ⟨q, rfl, padd_inRange hp (h1 rfl) (h1 rfl) hq⟩
      · cases h
    case smul =>
      simp only [runCommand, runSmul, pointResult] at h
      split at h
      · next q hq => cases h; exact .inl ⟨q, rfl, psmul_inRange hp (h1 rfl) hq⟩
      · cases h
  · cases h

/-- A completion either commits a result with ERR_NONE or reports an error (40_command_engine R101). -/
theorem engineComplete_busy {s : State} {r : Running} (h : s.eng = .busy r) :
    (∃ res, r.outcome = .ok res ∧ s.engineComplete = ((s.commit res).reportError .none).finish) ∨
    (∃ e, r.outcome = .error e ∧ s.engineComplete = (s.reportError e).finish) := by
  unfold State.engineComplete
  rw [h]
  cases ho : r.outcome with
  | ok res => exact .inl ⟨res, rfl, by simp [ho, State.complete]⟩
  | error e => exact .inr ⟨e, rfl, by simp [ho, State.complete]⟩

end Sys2Proof.Laws
end

