-- ==== Sys2Proof/Laws/PerInstr.lean ====
section
/-! SUPPORT. One family over the instructions as syntax: the canonical word has its ignored bits 0 (30_encoding R84). -/

namespace Sys2Proof.Laws.CanonicalWord

/-- Bits 3:2 and 31:8 of the canonical word are 0 (30_encoding R80, R84). -/
def Statement (i : Instr) : Prop := encodeWord i &&& 0xFFFFFF0C = 0

theorem add : Statement .add := rfl
theorem dbl : Statement .dbl := rfl
theorem neg : Statement .neg := rfl
theorem inv : Statement .inv := rfl
theorem smul : Statement .smul := rfl
theorem chk : Statement .chk := rfl
theorem badop (op : BitVec 4) : Statement (.badop op) := by
  unfold Statement encodeWord; revert op; decide
theorem srst : Statement .srst := rfl
theorem setop (op : BitVec 4) : Statement (.setop op) := by
  unfold Statement encodeWord; revert op; decide

end Sys2Proof.Laws.CanonicalWord
end

