-- ==== Sys2Proof/Laws/Step.lean ====
section
/-! SUPPORT. Everything one step can do, said once. -/

namespace Sys2Proof.Laws

open Sys2Proof.Machine

/-- Everything one host action can do, for `s` with the action taken out of the inbox. -/
theorem perform_cases {s t : State} {item : HostItem} (h : s.perform item = .next t) :
    (∃ r, t = s.respond r) ∨
    (∃ d u, exec (decodeWord d) s = .next u ∧ t = u.respond (.write false)) ∨
    (∃ l d, t = (s.writeLoc l d).respond (.write false)) ∨
    (∃ r, t = { s.respond r with inbox := .wait :: s.inbox }) ∨
    t = s ∨ t = { s.resetCore with rstN := false } := by
  cases item with
  | read addr =>
    simp only [State.perform] at h
    split at h
    · cases h
    · cases h; exact .inl ⟨_, rfl⟩
  | write addr d strb =>
    simp only [State.perform] at h
    split at h
    · cases h
    next off _ =>
    obtain ⟨-, h'⟩ | ⟨-, u, hu, h'⟩ | ⟨-, h'⟩ := busWrite_cases s off d strb <;> rw [h'] at h <;> cases h
    · exact .inl ⟨_, rfl⟩
    · exact .inr (.inl ⟨d, u, hu, rfl⟩)
    · exact .inr (.inr (.inl ⟨_, _, rfl⟩))
  | wait =>
    simp only [State.perform] at h
    cases h
    cases s.done
    · exact .inr (.inr (.inr (.inl ⟨_, rfl⟩)))
    · exact .inl ⟨_, rfl⟩
  | rst level =>
    cases level <;> cases h
    · exact .inr (.inr (.inr (.inr (.inr rfl))))
    · exact .inr (.inr (.inr (.inr (.inl rfl))))

/-- Everything one step can do: a completion event, the host's turn after an engine tick, an idle cycle, or a cycle of
reset. -/
theorem step_cases {s t : State} (h : step s = .next t) :
    (s.rstN = true ∧ (∃ r, s.eng = .busy r ∧ r.latLeft = 0) ∧ t = s.engineComplete) ∨
    (s.rstN = true ∧ (∀ r, s.eng = .busy r → r.latLeft ≠ 0) ∧ s.inbox = [] ∧ t = s.tick) ∨
    (s.rstN = true ∧ (∀ r, s.eng = .busy r → r.latLeft ≠ 0) ∧
      ∃ item rest, s.inbox = item :: rest ∧ State.perform { s.tick with inbox := rest } item = .next t) ∨
    (s.rstN = false ∧ s.inbox = [] ∧ t = s.resetCore) ∨
    (s.rstN = false ∧ ∃ level rest, s.inbox = .rst level :: rest ∧
      t = { s.resetCore with rstN := level, inbox := rest }) := by
  unfold step at h
  split at h
  next hr =>
    have turn : ∀ u : State, u = s.tick → (∀ r, s.eng = .busy r → r.latLeft ≠ 0) → u.hostTurn = .next t →
        (s.inbox = [] ∧ t = s.tick) ∨
          ∃ item rest, s.inbox = item :: rest ∧ State.perform { s.tick with inbox := rest } item = .next t := by
      rintro u rfl - hu
      unfold State.hostTurn at hu
      rw [State.tick_inbox] at hu
      split at hu
      · next hi => cases hu; exact .inl ⟨hi, rfl⟩
      · next item rest hi => exact .inr ⟨item, rest, hi, hu⟩
    unfold State.running at h
    split at h
    next he =>
      have hq : ∀ r, s.eng = .busy r → r.latLeft ≠ 0 := by simp [he]
      obtain ⟨hi, ht⟩ | hx := turn s (by simp [State.tick, he]) hq h
      · exact .inr (.inl ⟨hr, hq, hi, ht⟩)
      · exact .inr (.inr (.inl ⟨hr, hq, hx⟩))
    next r he =>
      split at h
      · next hl => cases h; exact .inl ⟨hr, ⟨r, he, hl⟩, rfl⟩
      · next hl =>
        have hq : ∀ r', s.eng = .busy r' → r'.latLeft ≠ 0 := by
          intro r' h'; rw [he] at h'; cases h'; exact hl
        obtain ⟨hi, ht⟩ | hx := turn s.tick rfl hq h
        · exact .inr (.inl ⟨hr, hq, hi, ht⟩)
        · exact .inr (.inr (.inl ⟨hr, hq, hx⟩))
  next hr =>
    have hr' : s.rstN = false := by simpa using hr
    unfold State.heldInReset at h
    split at h
    · next hi => cases h; exact .inr (.inr (.inr (.inl ⟨hr', hi, rfl⟩)))
    · next level rest hi => cases h; exact .inr (.inr (.inr (.inr ⟨hr', level, rest, hi, rfl⟩)))
    all_goals cases h

end Sys2Proof.Laws
end

