-- ==== Sys2Proof/Tests/Slice0.lean ====
section
/-! SUPPORT. The author's own tests: the checks of WellFormed, words written out bit by bit, the spec's vectors (spec/
95_test_vectors, one command or one bus action each), and a witness for the hypotheses of every statement that has some. -/

set_option exponentiation.threshold 1024

namespace Sys2Proof.Tests

open Sys2Proof.Machine Sys2Proof.Expect Sys2Proof.Laws

/-! ## WellFormed refuses ill-formed terms -/

theorem test_wf_badop_valid_opcode : (Instr.badop 3).wf = false := by decide
theorem test_wf_badop_reserved_opcodes : ∀ op : BitVec 4, (Instr.badop op).wf = !decide (1 ≤ op.toNat ∧ op.toNat ≤ 6) := by
  decide
theorem test_wf_width_too_small : (Config.mk 1 0).wf = false := by decide
theorem test_wf_width_too_large : (Config.mk 1025 0).wf = false := by decide
theorem test_wf_base_unaligned : (Config.mk 32 1).wf = false := by decide
theorem test_wf_limits : (Config.mk 2 0).wf = true ∧ (Config.mk 1024 4096).wf = true := by decide

/-! ## Decoding: words written out from 30_encoding R80 (OP in bits 7:4, SRST bit 1, START bit 0) and the vectors -/

theorem test_decode_add : decode [0b00010001, 0, 0, 0] = .ok (.add, []) := by decide
theorem test_decode_dbl : decode [0b00100001, 0, 0, 0] = .ok (.dbl, []) := by decide
theorem test_decode_neg : decode [0b00110001, 0, 0, 0] = .ok (.neg, []) := by decide
theorem test_decode_inv : decode [0b01000001, 0, 0, 0] = .ok (.inv, []) := by decide
theorem test_decode_smul : decode [0b01010001, 0, 0, 0] = .ok (.smul, []) := by decide
theorem test_decode_chk : decode [0b01100001, 0, 0, 0] = .ok (.chk, []) := by decide
theorem test_decode_badop : decode [0b11110001, 0, 0, 0] = .ok (.badop 15, []) := by decide
theorem test_decode_srst : decode [0b00000010, 0, 0, 0] = .ok (.srst, []) := by decide
theorem test_decode_setop : decode [0b01010000, 0, 0, 0] = .ok (.setop 5, []) := by decide
/-- V-ENC-1. -/
theorem test_decode_ignored_bits : decode [0x4D, 0x0F, 0, 0] = .ok (.inv, []) := by decide
/-- V-ENC-2. -/
theorem test_decode_srst_wins : decode [0x13, 0xFF, 0xFF, 0xFF] = .ok (.srst, []) := by decide
/-- V-BAD-5. -/
theorem test_decode_badop_zero : decode [0x0D, 0xFF, 0xFF, 0xFF] = .ok (.badop 0, []) := by decide
theorem test_decode_truncated : decode [0x11, 0, 0] = .error (.truncated 3) := by decide
theorem test_table_word : decodeTableWord 32 0x51 = some .smul := by decide

/-! ## Commands, from acceptance to the completion event (vectors of 95_test_vectors, sections 3.1 to 3.7) -/

/-- A state that holds a curve and operands: INF2 = 1, the rest of the flags 0. -/
def loaded (a b p x1 y1 x2 y2 k : Operand) (inf2 : Bool) : State :=
  { State.reset with
    inf2 := inf2
    regs := { a := a, b := b, p := p, x1 := x1, y1 := y1, x2 := x2, y2 := y2, k := k, x3 := 0, y3 := 0 } }

/-- STATUS, PTFLAGS, X3 and Y3 after the command's completion event. -/
def outcome (i : Instr) (s : State) : Option (Word × Word × Nat × Nat) :=
  match exec i s with
  | .next t =>
    some (statusWord t.engineComplete, ptflagsWord t.engineComplete, t.engineComplete.regs.x3.toNat,
      t.engineComplete.regs.y3.toNat)
  | .fault _ => none
  | .refused _ => none

/-- STATUS, CTRL, X3 and P right after the write. -/
def written (i : Instr) (s : State) : Option (Word × Word × Nat × Nat) :=
  match exec i s with
  | .next t => some (statusWord t, ctrlWord t, t.regs.x3.toNat, t.regs.p.toNat)
  | .fault _ => none
  | .refused _ => none

/-- V-ADD-1. -/
theorem test_add_chord : outcome .add (loaded 2 2 17 5 1 6 3 0 false) = some (0x002, 0x000, 10, 6) := by decide
/-- V-ADD-12. -/
theorem test_add_fatal : outcome .add (loaded 0 0 15 0 0 5 1 0 false) = some (0x50A, 0x000, 0, 0) := by decide
/-- V-DBL-1. -/
theorem test_dbl : outcome .dbl (loaded 2 2 17 5 1 99 99 0 false) = some (0x002, 0x000, 6, 3) := by decide
/-- V-DBL-2. -/
theorem test_dbl_vertical : outcome .dbl (loaded 2 14 17 1 0 0 0 0 true) = some (0x002, 0x102, 0, 0) := by decide
/-- V-NEG-1. -/
theorem test_neg : outcome .neg (loaded 2 2 17 5 1 0 0 0 true) = some (0x002, 0x002, 5, 16) := by decide
/-- V-NEG-4. -/
theorem test_neg_range : outcome .neg (loaded 2 2 17 5 17 0 0 0 true) = some (0x302, 0x002, 0, 0) := by decide
/-- V-INV-4. -/
theorem test_inv_large_operand : outcome .inv (loaded 0 0 17 20 99 0 0 0 true) = some (0x002, 0x002, 6, 0) := by decide
/-- V-INV-7. -/
theorem test_inv_noinv : outcome .inv (loaded 0 0 15 5 0 0 0 0 true) = some (0x402, 0x002, 0, 0) := by decide
/-- V-SMUL-1. -/
theorem test_smul : outcome .smul (loaded 2 2 17 5 1 0 0 7 true) = some (0x002, 0x002, 0, 6) := by decide
/-- V-SMUL-9. -/
theorem test_smul_trailing_doubling : outcome .smul (loaded 0 0 15 1 5 0 0 1 true) = some (0x50A, 0x002, 0, 0) := by decide
/-- V-CHK-7. -/
theorem test_chk_on : outcome .chk (loaded 19 2 17 5 1 0 0 0 true) = some (0x012, 0x002, 0, 0) := by decide
/-- V-CHK-2, and V-CHK-8: P = 0 ends with ERR_PARAM, code 2. -/
theorem test_chk_off_and_param : outcome .chk (loaded 2 2 17 0 0 0 0 0 true) = some (0x002, 0x002, 0, 0) ∧
    outcome .chk (loaded 2 2 0 5 1 0 0 0 true) = some (0x202, 0x002, 0, 0) := by decide
/-- V-BAD-3. -/
theorem test_badop_before_range : outcome (.badop 15) (loaded 0 0 17 99 99 0 0 0 true) = some (0x102, 0x002, 0, 0) := by
  decide
/-- V-BAD-2. -/
theorem test_badop_before_param : outcome (.badop 9) (loaded 0 0 1 0 0 0 0 0 true) = some (0x102, 0x002, 0, 0) := by decide
/-- V-ENC-2. -/
theorem test_srst : written .srst (loaded 2 2 17 5 1 6 3 7 true) = some (0, 0, 0, 0) := by decide
/-- V-ENC-3. -/
theorem test_setop : written (.setop 5) (loaded 2 2 17 5 1 6 3 7 true) = some (0, 0x50, 0, 17) := by decide

/-! ## A command in flight (section 3.8) -/

/-- Curve E, P1 = G, P2 = 2·G, K = 7. -/
def curveE : State := loaded 2 2 17 5 1 6 3 7 false

/-- `curveE` with an SMUL in flight, `n` engine ticks before its completion event. -/
def smulE (n : Nat) : State :=
  { curveE with
    ctrlOp := 5
    eng := .busy { snap := curveE.snapshot 5, work := (curveE.snapshot 5).startWork, latLeft := n } }

/-- V-LC-2, V-LC-3. -/
theorem test_request_while_busy : written .add (smulE 3) = some (0x005, 0x10, 0, 17) := by decide
/-- V-LC-4: the snapshot decides, not the registers at completion. -/
theorem test_snapshot_decides :
    ((smulE 0).writeLoc (.word .k 0) 1).engineComplete.regs.y3.toNat = 6 ∧
      ((smulE 0).writeLoc (.word .k 0) 1).engineComplete.regs.k.toNat = 1 := by decide

/-! ## The bus (section 3.9) -/

/-- What a write of `d` at `off` with strobes `strb` leaves: the newest response, and a read of `back`. -/
def wrote (s : State) (off : Offset) (d : Word) (strb : BitVec 4) (back : Offset) : Option (Option BusResp × Word × Bool) :=
  match s.busWrite off d strb with
  | .next t => some (t.resp.head?, t.busRead back)
  | .fault _ => none
  | .refused _ => none

/-- V-BUS-1. -/
theorem test_bus_misaligned_read : curveE.busRead 0x00D = (0, true) := by decide
/-- V-BUS-2. -/
theorem test_bus_partial_write : wrote curveE 0x200 99 0b0011 0x200 = some (some (.write true), 17, false) := by decide
/-- V-BUS-6. -/
theorem test_bus_word_beyond : wrote curveE 0x284 7 0b1111 0x284 = some (some (.write false), 0, false) := by decide
/-- V-BUS-7. -/
theorem test_bus_read_only : wrote curveE 0x500 9 0b1111 0x500 = some (some (.write false), 0, false) := by decide
/-- V-BUS-8. -/
theorem test_bus_ptflags : wrote curveE 0x014 0xFFFFFFFF 0b1111 0x014 = some (some (.write false), 7, false) := by decide
/-- V-BUS-9. -/
theorem test_bus_inten : wrote curveE 0x010 0xFFFFFFFF 0b1111 0x010 = some (some (.write false), 1, false) := by decide
/-- V-BUS-10. -/
theorem test_bus_masked :
    wrote (State.resetOf (Config.mk 8 0)) 0x200 0x1FF 0b1111 0x200 = some (some (.write false), 0xFF, false) := by decide
/-- V-BUS-11. -/
theorem test_bus_second_word :
    wrote (State.resetOf (Config.mk 64 0)) 0x204 1 0b1111 0x204 = some (some (.write false), 1, false) ∧
      (State.resetOf (Config.mk 64 0)).busRead 0x004 = (0x00020040, false) := by decide
/-- V-LC-1. -/
theorem test_reset_reads :
    State.reset.busRead 0x000 = (0xECC00100, false) ∧ State.reset.busRead 0x004 = (0x00010020, false) ∧
      State.reset.busRead 0x00C = (0, false) ∧ State.reset.busRead 0x014 = (0, false) := by decide
/-- V-LC-6: a write of all ones clears DONE and REJ, and leaves ERR and FATAL. -/
theorem test_status_write :
    statusWord ({ State.reset with done := true, rej := true, fatal := true, err := .fatal }.writeStatus 0xFFFFFFFF) =
      0x508 := by decide

/-! ## The host's scheme sequences (30_encoding R97, 95_test_vectors L3-1) -/

/-- L3-1 lines 13 to 14: CHK of M loads X1 and Y1 and sets INF2; it leaves K alone. -/
theorem test_host_chk_step :
    hostStep Config.ofReset .chk (.affine 6 3) none none =
      [.write 0x280 6 0b1111, .write 0x300 3 0b1111, .write 0x014 2 0b1111, .write 0x008 0x61 0b1111, .wait] := by decide

/-- L3-1 lines 25 to 27: SMUL of C1 by d loads K too. -/
theorem test_host_smul_step :
    hostStep Config.ofReset .smul (.affine 7 6) none (some 7) =
      [.write 0x280 7 0b1111, .write 0x300 6 0b1111, .write 0x480 7 0b1111, .write 0x014 2 0b1111,
        .write 0x008 0x51 0b1111, .wait] := by decide

/-- What a host program reports once its first batch has been answered, if it then reports. -/
def reportAfter {α : Type} (resp : List BusResp) : HostProg α → Option α
  | .report a => some a
  | .issue _ next =>
    match next resp with
    | .report a => some a
    | .issue _ _ => none

/-- L3-1 lines 8 and 14: STATUS 0x002 ends keygen and encrypt with their errors, 0x012 lets them go on. -/
theorem test_host_branches :
    reportAfter [.read 0x002 false] (hostKeygen Config.ofReset (.affine 0 0) 7) = some (.error .invalidBasePoint) ∧
      reportAfter [.read 0x002 false] (hostEncrypt Config.ofReset (.affine 5 1) (.affine 0 6) (.affine 0 0) 9) =
        some (.error .invalidMessagePoint) ∧
      reportAfter [.read 0x012 false] (hostKeygen Config.ofReset (.affine 5 1) 7) = none := by decide

/-- 70_reset_and_hazards R174 step 5: with the STATUS 0x302 of L3-2 line 13, or an old ONCURVE = 1 beside ERR_RANGE, the
host reads no result and no ONCURVE; what it reports is log 20's choice. -/
theorem test_host_failed_command :
    reportAfter [.read 0x302 false] (hostSub Config.ofReset (.affine 5 1) (.affine 17 1)) =
        some (.error (.commandFailed 3)) ∧
      reportAfter [.read 0x312 false] (hostKeygen Config.ofReset (.affine 17 1) 7) =
        some (.error (.commandFailed 3)) := by decide

/-- L3-1 line 31 and L3-2 line 11: the result points (16, 4) and Identity. -/
theorem test_host_result :
    resultRead Config.ofReset [.read 4 false, .read 16 false, .read 0x002 false] = .affine 16 4 ∧
      resultRead Config.ofReset [.read 0 false, .read 0 false, .read 0x100 false] = .identity := by decide

/-! ## Witnesses: states and operands that meet the hypotheses of each statement together -/

theorem hostNext_idle {s : State} (h1 : s.rstN = true) (h2 : s.eng = .idle) : hostNext s :=
  ⟨h1, fun r h => by rw [h2] at h; cases h⟩

theorem curveE_hostNext (inbox : List HostItem) : hostNext { curveE with inbox := inbox } := hostNext_idle rfl rfl

theorem smulE_hostNext (inbox : List HostItem) : hostNext { smulE 3 with inbox := inbox } :=
  ⟨rfl, fun r h => by cases h; decide⟩

theorem fits_of_all {f : RegFile} {w : Nat} (h : (Reg.all.all fun r => decide ((f.get r).toNat < 2 ^ w)) = true) : f.fits w := by
  intro r
  have hr : r ∈ Reg.all := by cases r <;> decide
  simpa using (List.all_eq_true.mp h) r hr

theorem curveE_fits : curveE.regs.fits 32 := fits_of_all (by decide)

theorem smulE_inv (n : Nat) : (smulE n).Inv where
  legal := rfl
  regsFit := curveE_fits
  snapFits := by
    intro r h
    cases h
    refine ⟨curveE_fits .a, curveE_fits .b, curveE_fits .p, curveE_fits .x1, curveE_fits .k, ?_, ?_⟩
    · exact ⟨curveE_fits .x1, curveE_fits .y1⟩
    · exact ⟨curveE_fits .x2, curveE_fits .y2⟩
  busyQuiet := fun _ => ⟨rfl, rfl, rfl⟩
  fatalCode := ⟨fun h => (by cases h), fun h => (by cases h)⟩
  identityZero := fun h => by cases h
  outcomeFixed := by
    intro r h
    cases h
    exact start_outcome _ _
  heldInReset := fun h => by cases h

/-- The command `op` of `curveE` in flight, its completion event due. -/
def dueRun (op : BitVec 4) : Running :=
  { snap := curveE.snapshot op, work := (curveE.snapshot op).startWork, latLeft := 0 }

/-- `curveE` with that command in flight. -/
def dueE (op : BitVec 4) : State := { curveE with eng := .busy (dueRun op) }

theorem dueE_inv (op : BitVec 4) : (dueE op).Inv where
  legal := rfl
  regsFit := curveE_fits
  snapFits := by
    intro r h
    cases h
    refine ⟨curveE_fits .a, curveE_fits .b, curveE_fits .p, curveE_fits .x1, curveE_fits .k, ?_, ?_⟩
    · exact ⟨curveE_fits .x1, curveE_fits .y1⟩
    · exact ⟨curveE_fits .x2, curveE_fits .y2⟩
  busyQuiet := fun _ => ⟨rfl, rfl, rfl⟩
  fatalCode := ⟨fun h => (by cases h), fun h => (by cases h)⟩
  identityZero := fun h => by cases h
  outcomeFixed := by
    intro r h
    cases h
    exact start_outcome _ _
  heldInReset := fun h => by cases h

theorem witness_ReservedCtrlBitsIgnored : (0xFFFFFF11 : Word) &&& 0x000000F3 = 0x00000011 &&& 0x000000F3 := by decide

theorem witness_DecodeInvertsEncode : (Instr.badop 7).wf = true ∧ (Instr.setop 15).wf = true ∧ Instr.smul.wf = true := by decide

theorem witness_CtrlWriteDecodesByStrobes :
    (0x00000003 : Word).getLsbD 1 = true ∧ ((0x000000F1 : Word).getLsbD 1 = false ∧ (0x000000F1 : Word).getLsbD 0 = true) ∧
      ((0xFFFFFFFC : Word).getLsbD 1 = false ∧ (0xFFFFFFFC : Word).getLsbD 0 = false) := by decide

theorem witness_StepRunsTheDecodedInstruction :
    hostNext { smulE 3 with inbox := [.write 8 0x11 0b1111] } ∧ decode (wordBytes 0x11) = .ok (.add, []) :=
  ⟨smulE_hostNext _, by decide⟩

theorem witness_FetchWordRunsItsInstruction :
    decodeTableWord 32 0x11 = some .add ∧ decodeTableWord 2 0x2 = some .srst := by decide

/-- One state for an idle step, one for a host action, one for a completion event. -/
theorem witness_OneEventPerStep :
    curveE.stepsOn ∧ State.stepsOn { curveE with inbox := [.rst true] } ∧
      ((smulE 0).stepsOn ∧ (smulE 0).rstN = true ∧ ∃ r, (smulE 0).eng = .busy r ∧ r.latLeft = 0) :=
  ⟨⟨_, rfl⟩, ⟨_, rfl⟩, ⟨_, rfl⟩, rfl, _, rfl, rfl⟩

theorem witness_RequestFollowsAcceptanceRule :
    requestOp .add = some 1 ∧ requestOp (.badop 0) = some 0 ∧ (curveE.busy = false ∧ curveE.fatal = false) ∧
      (smulE 1).busy = true ∧ State.fatal { curveE with fatal := true } = true := by decide

theorem witness_SrstResetsAllState : (0xFFFFFF13 : Word).getLsbD 1 = true := by decide

theorem witness_HardwareResetHoldsResetValues :
    (hostNext { smulE 3 with inbox := [.rst false] } ∧ State.inbox { smulE 3 with inbox := [.rst false] } = [.rst false]) ∧
      (let s : State := { curveE with rstN := false }
       s.rstN = false ∧ s.inbox = []) ∧
      (let s : State := { curveE with rstN := false, inbox := [.read 0] }
       s.rstN = false ∧ s.inbox = [.read 0] ∧ ∀ level, HostItem.read 0 ≠ .rst level) ∧
      (curveE.rstN = true ∧ curveE.busy = false ∧ curveE.inbox = []) :=
  ⟨⟨smulE_hostNext _, rfl⟩, ⟨rfl, rfl⟩, ⟨rfl, rfl, fun _ h => by cases h⟩, rfl, rfl, rfl⟩

theorem witness_AbandonedCommandNeverCompletes :
    (smulE 3).busy = true ∧ (smulE 3).inbox = [] ∧ exec .srst (smulE 3) = .next (smulE 3).resetCore := ⟨rfl, rfl, rfl⟩

theorem witness_BadopEndsWithBadop :
    reservedOp 0 = true ∧ reservedOp 7 = true ∧ reservedOp 15 = true ∧ (curveE.busy = false ∧ curveE.fatal = false) ∧
      (smulE 1).busy = true := by decide

/-- ADD, DBL, SMUL and CHK share these hypotheses; ADD has P2 too. -/
theorem witness_AddCommitsTheSum :
    curveE.busy = false ∧ curveE.fatal = false ∧ 2 ≤ curveE.regs.p.toNat ∧ curveE.p1.inRange curveE.regs.p.toNat = true ∧
      curveE.p2.inRange curveE.regs.p.toNat = true := by decide

theorem witness_DblCommitsTheDouble :
    curveE.busy = false ∧ curveE.fatal = false ∧ 2 ≤ curveE.regs.p.toNat ∧ curveE.p1.inRange curveE.regs.p.toNat = true := by
  decide

/-- The largest in-range coordinate, and Identity. -/
theorem witness_NegCommitsTheNegative :
    (let s := loaded 2 2 17 16 16 0 0 0 true
     s.busy = false ∧ s.fatal = false ∧ 2 ≤ s.regs.p.toNat ∧ s.inf1 = false ∧ s.regs.x1.toNat < s.regs.p.toNat ∧
       s.regs.y1.toNat < s.regs.p.toNat) ∧
      State.inf1 { curveE with inf1 := true } = true := by decide

/-- P = 2, the smallest modulus, for the first clause; X1 = 0 for the second. -/
theorem witness_InvCommitsTheInverse :
    (let s := loaded 0 0 2 1 0 0 0 0 true
     s.busy = false ∧ s.fatal = false ∧ 2 ≤ s.regs.p.toNat ∧ Nat.gcd s.regs.x1.toNat s.regs.p.toNat = 1) ∧
      (let s := loaded 0 0 17 0 0 0 0 0 true
       s.busy = false ∧ s.fatal = false ∧ 2 ≤ s.regs.p.toNat ∧ Nat.gcd s.regs.x1.toNat s.regs.p.toNat ≠ 1) := by decide

theorem witness_SmulCommitsTheMultiple :
    curveE.busy = false ∧ curveE.fatal = false ∧ 2 ≤ curveE.regs.p.toNat ∧ curveE.p1.inRange curveE.regs.p.toNat = true := by
  decide

theorem witness_ChkReportsMembership :
    curveE.busy = false ∧ curveE.fatal = false ∧ 2 ≤ curveE.regs.p.toNat ∧ curveE.p1.inRange curveE.regs.p.toNat = true := by
  decide

/-- One state per clause, at its boundary: P = 1; x1 = P; x2 = P. -/
theorem witness_FailedChecksCommitNothing :
    (requestOp .add = some 1 ∧ reservedOp 1 = false) ∧
      (let s := loaded 0 0 1 0 0 0 0 0 false
       s.busy = false ∧ s.fatal = false ∧ s.regs.p.toNat < 2) ∧
      (let s := loaded 0 0 17 17 0 0 0 0 false
       s.busy = false ∧ s.fatal = false ∧ 2 ≤ s.regs.p.toNat ∧ s.p1.inRange s.regs.p.toNat = false) ∧
      (let s := loaded 0 0 17 16 0 17 0 0 false
       s.busy = false ∧ s.fatal = false ∧ 2 ≤ s.regs.p.toNat ∧ s.p1.inRange s.regs.p.toNat = true ∧
         s.p2.inRange s.regs.p.toNat = false) := by decide

/-- One snapshot per clause, at its boundary. -/
theorem witness_ChecksFailInOrder :
    reservedOp ((loaded 0 0 0 0 0 0 0 0 false).snapshot 7).op = true ∧
      ((loaded 0 0 1 0 0 0 0 0 false).snapshot 6).p.toNat < 2 ∧
      (let sn := (loaded 0 0 17 17 0 0 0 0 false).snapshot 6
       reservedOp sn.op = false ∧ 2 ≤ sn.p.toNat ∧ sn.op ≠ 4 ∧ sn.p1.inRange sn.p.toNat = false) ∧
      (let sn := (loaded 0 0 17 16 0 17 0 0 false).snapshot 1
       sn.op = 1 ∧ 2 ≤ sn.p.toNat ∧ sn.p1.inRange sn.p.toNat = true ∧ sn.p2.inRange sn.p.toNat = false) ∧
      (let sn := curveE.snapshot 1
       reservedOp sn.op = false ∧ 2 ≤ sn.p.toNat ∧ sn.p1.inRange sn.p.toNat = true ∧ sn.p2.inRange sn.p.toNat = true) := by
  decide

/-- Snapshots that differ in what the command does not read. -/
theorem witness_CommandsReadOnlyTheirOperands :
    (let sn := curveE.snapshot 4
     let sn' := { sn with a := 9, b := 9, p1 := .identity, kmag := 9 }
     sn'.op = sn.op ∧ sn.op = 4 ∧ sn'.p = sn.p ∧ sn'.x1 = sn.x1) ∧
      (let sn := curveE.snapshot 1
       let sn' := { sn with b := 9, x1 := 9, kmag := 9 }
       sn'.op = sn.op ∧ sn.op = 1 ∧ sn'.p = sn.p ∧ sn'.a = sn.a ∧ sn'.p1 = sn.p1 ∧ sn'.p2 = sn.p2) ∧
      (curveE.snapshot 2).op = 2 ∧ (curveE.snapshot 3).op = 3 ∧ (curveE.snapshot 5).op = 5 ∧ (curveE.snapshot 6).op = 6 ∧
      (let sn := curveE.snapshot 0
       let sn' := { sn with p := 1, a := 9, p1 := .identity }
       sn'.op = sn.op ∧ reservedOp sn.op = true) := by decide

/-- V-CHK-7: A = 19 counts as 2. -/
theorem witness_CoefficientsCountModuloP :
    (19 : Operand).toNat % (curveE.snapshot 6).p.toNat = (curveE.snapshot 6).a.toNat % (curveE.snapshot 6).p.toNat ∧
      (19 : Operand).toNat % (curveE.snapshot 6).p.toNat = (curveE.snapshot 6).b.toNat % (curveE.snapshot 6).p.toNat := by decide

theorem witness_FinvAnswersTheUniqueInverse : (2 ≤ 2) ∧ finv 3 17 = some 6 ∧ finv 5 15 = none := by decide

theorem witness_FieldHelpersAnswerResidues : (2 : Nat) ≤ 2 ∧ fsub 17 3 5 = 15 ∧ fneg 2 1 = 1 := by decide

/-- One pair of points per clause: V-ADD-3, V-ADD-1, V-ADD-12. -/
theorem witness_GroupLawOnAffinePoints :
    ((2 ≤ 17 ∧ 5 < 17 ∧ 16 < 17) ∧ ((5 : Int) - 5) % 17 = 0) ∧
      (((6 : Int) - 5) % 17 ≠ 0 ∧ Int.gcd (((6 : Int) - 5) % 17) 17 = 1) ∧
      (((5 : Int) - 0) % 15 ≠ 0 ∧ Int.gcd (((5 : Int) - 0) % 15) 15 ≠ 1) := by decide

theorem witness_GroupLawsForEveryInRangePoint :
    2 ≤ 15 ∧ Pt.inRange 15 (.affine 14 14) = true ∧ Pt.inRange 15 .identity = true := by decide

theorem prime17 : Nat.Prime 17 := by norm_num

theorem witness_PrimeModulusNeverFatal :
    Nat.Prime 17 ∧ Pt.inRange 17 (.affine 16 16) = true ∧ Pt.inRange 17 .identity = true := ⟨prime17, by decide⟩

theorem witness_SumStaysOnTheCurve :
    goodCurve 2 2 17 ∧ Pt.inRange 17 (.affine 5 1) = true ∧ onCurve 2 2 17 (.affine 5 1) ∧ onCurve 2 2 17 (.affine 6 3) ∧
      padd 2 17 (.affine 5 1) (.affine 6 3) = .ok (.affine 10 6) :=
  ⟨⟨prime17, by decide, by decide⟩, by decide, by unfold onCurve; decide, by unfold onCurve; decide, by decide⟩

theorem witness_ScalarMultiplyIsLinear :
    goodCurve 2 2 17 ∧ Pt.inRange 17 (.affine 5 1) = true ∧ onCurve 2 2 17 (.affine 5 1) :=
  ⟨⟨prime17, by decide, by decide⟩, by decide, by unfold onCurve; decide⟩

/-- A scalar that SMUL multiplies by; its first two and all four iterations; and an addition that raises. -/
theorem witness_LoopRunsBitLengthIterations :
    dbladd 2 17 (.affine 5 1) 10 = .ok (.affine 7 11) ∧
      (2 ≤ Nat.size 10 ∧ partialSum 2 17 (.affine 5 1) 10 2 = .ok (.affine 6 3) ∧
        doublings 2 17 (.affine 5 1) 2 = .ok (.affine 3 1)) ∧
      (partialSum 2 17 (.affine 5 1) 10 (Nat.size 10) = .ok (.affine 7 11) ∧
        doublings 2 17 (.affine 5 1) (Nat.size 10) = .ok (.affine 10 11)) ∧
      2 ≤ Nat.size 3 ∧ partialSum 0 15 (.affine 1 1) 3 2 = .error .fatal := by decide

/-- A scalar that SMUL multiplies by, of either sign, one whose last doubling raises, and a point for n = 1. -/
theorem witness_TrailingDoublingIsDone :
    ((2 : Int) ≠ 0 ∧ (-6 : Int) ≠ 0) ∧ psmul 2 17 (.affine 5 1) (-6) = .ok (.affine 16 4) ∧
      doublings 1 15 (.affine 0 1) (2 : Int).natAbs.size = .error .fatal ∧
      padd 2 17 (.affine 5 1) (.affine 5 1) = .ok (.affine 6 3) := by decide

/-- One command per clause: an error (BADOP), CHK, INV, an Identity result and an affine one. -/
theorem witness_CompletionIsOneEvent :
    (∀ op, (dueE op).Inv ∧ (dueE op).rstN = true ∧ (dueE op).eng = .busy (dueRun op) ∧ (dueRun op).latLeft = 0) ∧
      execute (dueRun 0).snap = .error .badop ∧ execute (dueRun 6).snap = .ok (.onCurve true) ∧
      execute (dueRun 4).snap = .ok (.inverse 7) ∧ execute (dueRun 1).snap = .ok (.point (.affine 10 6)) ∧
      execute ((loaded 2 2 17 5 1 5 16 0 false).snapshot 1) = .ok (.point .identity) :=
  ⟨fun op => ⟨dueE_inv op, rfl, rfl, rfl⟩, by decide⟩

theorem witness_AcceptedCommandCompletes :
    (smulE 3).rstN = true ∧ (∃ r, (smulE 3).eng = .busy r) ∧
      State.contract { smulE 3 with inbox := [.read 0x00C, .wait] } = true ∧
      (∀ item ∈ [HostItem.read 0x00C, .wait], isReset (smulE 3).cfg item = false) ∧
      requestOp .smul = some 5 ∧ curveE.busy = false ∧ curveE.fatal = false ∧
      ∃ u r, exec .smul curveE = .next u ∧ u.eng = .busy r :=
  ⟨rfl, ⟨_, rfl⟩, by decide, by decide, rfl, rfl, rfl, _, _, rfl, rfl⟩

/-- An idle step, a completion event, and a reset. -/
theorem witness_ResultsChangeOnlyAtCompletion :
    curveE.stepsOn ∧ (smulE 0).stepsOn ∧ State.stepsOn { curveE with inbox := [.write 8 2 0b1111] } ∧
      resetStep { curveE with inbox := [.write 8 2 0b1111] } :=
  ⟨⟨_, rfl⟩, ⟨_, rfl⟩, ⟨_, rfl⟩, .inr ⟨curveE_hostNext _, _, rfl, rfl⟩⟩

theorem witness_CommandsWriteNoOperand : requestOp .smul = some 5 ∧ ∃ t, exec .smul curveE = .next t := ⟨rfl, _, rfl⟩

theorem witness_OncurveIsTheLastChk :
    (∀ op, (dueE op).Inv ∧ (dueE op).eng = .busy (dueRun op)) ∧ (dueRun 5).snap.op ≠ 6 ∧ (dueRun 6).snap.op = 6 ∧
      execute (dueRun 6).snap = .ok (.onCurve true) ∧ execute (dueRun 0).snap = .error .badop :=
  ⟨fun op => ⟨dueE_inv op, rfl⟩, by decide⟩

/-- A request turned away while FATAL is set. -/
theorem witness_FatalBlocksUntilReset :
    let s : State := { curveE with fatal := true, err := .fatal, inbox := [.write 8 0x31 0b1111] }
    s.fatal = true ∧ s.busy = false ∧ s.rstN = true ∧ (∀ item ∈ s.inbox.head?, isReset s.cfg item = false) ∧ s.stepsOn :=
  ⟨rfl, rfl, rfl, by decide, _, rfl⟩

theorem witness_BusErrorsChangeNothing :
    (0xFFF : Offset).toNat % 4 ≠ 0 ∧ (0xFFC : Offset).toNat % 4 = 0 ∧ (0b0111 : BitVec 4) ≠ 0b1111 := by decide

theorem witness_ReadsChangeNothing :
    hostNext { smulE 3 with inbox := [.read 0xFFF] } ∧
      State.inbox { smulE 3 with inbox := [.read 0xFFF] } = .read ((smulE 3).cfg.base + (0xFFF : Offset).toNat) :: [] :=
  ⟨smulE_hostNext _, rfl⟩

theorem witness_OperandWindowLayout :
    (curveE.regs.get .y3).toNat < 2 ^ curveE.cfg.w ∧ (0 < 32 ∧ 0 < curveE.cfg.nw) ∧ 31 < 32 ∧ curveE.cfg.nw ≤ 1 := by decide

theorem witness_OperandWriteReadsBackMasked :
    (Config.mk 1024 0).wf = true ∧ 31 < (Config.mk 1024 0).nw ∧ (Config.mk 2 0).wf = true ∧ 0 < (Config.mk 2 0).nw ∧
      Reg.busWritable .k = true := by decide

/-- Offsets at the edges of each clause. -/
theorem witness_ReadOnlyAndReservedLocations :
    ((0x004 : Offset).toNat % 4 = 0 ∧ (0x004 : Offset).toNat < 0x008) ∧
      ((0x018 : Offset).toNat % 4 = 0 ∧ 0x018 ≤ (0x018 : Offset).toNat ∧ (0x0FC : Offset).toNat < 0x100) ∧
      ((0x500 : Offset).toNat % 4 = 0 ∧ 0x500 ≤ (0x500 : Offset).toNat) ∧
      ((0xFFC : Offset).toNat % 4 = 0 ∧ 0x600 ≤ (0xFFC : Offset).toNat) := by decide

theorem witness_IdAndCfgAreConstants :
    State.reset.cfg.wf = true ∧ (State.resetOf (Config.mk 1024 0)).cfg.wf = true := by decide

theorem witness_CtrlStoresAndReadsOp :
    (0xFFFFFFFD : Word).getLsbD 1 = false ∧ (0x00000002 : Word).getLsbD 1 = true := by decide

theorem witness_StatusWriteOneToClear :
    (0x00000002 : Word).getLsbD 1 = true ∧ State.irq { curveE with done := true, doneIe := true } = true := by decide

theorem witness_OperandWritesDoNotDisturbTheCommand :
    (0x480 : Offset) ≠ 0x008 ∧ ∃ t, (smulE 3).busWrite 0x480 1 0b1111 = .next t := ⟨by decide, _, rfl⟩

theorem witness_LoadSequenceStoresTheValue :
    let s : State := { curveE with inbox := hostLd curveE.cfg .p 17 ++ [.wait] }
    s.cfg.wf = true ∧ s.rstN = true ∧ s.busy = false ∧ Reg.busWritable .p = true ∧
      s.inbox = hostLd s.cfg .p 17 ++ [.wait] :=
  ⟨by decide, rfl, rfl, rfl, rfl⟩

theorem witness_WaitReadsStatusUntilDone :
    hostNext { curveE with done := true, inbox := [.wait] } ∧ hostNext { smulE 3 with inbox := [.wait] } :=
  ⟨hostNext_idle rfl rfl, smulE_hostNext _⟩

theorem witness_ResetStateSatisfiesInv : (Config.mk 2 0).wf = true ∧ (Config.mk 1024 4096).wf = true := by decide

theorem witness_StepKeepsInv : (smulE 3).Inv ∧ (smulE 3).stepsOn ∧ (smulE 0).Inv ∧ (smulE 0).stepsOn :=
  ⟨smulE_inv 3, ⟨_, rfl⟩, smulE_inv 0, ⟨_, rfl⟩⟩

theorem witness_StatusIsQuietWhileBusy : (smulE 3).Inv ∧ (smulE 3).busy = true := ⟨smulE_inv 3, rfl⟩

theorem witness_HostContractKeepsTheMachineGoing :
    State.contract { smulE 3 with inbox := [.rst false, .rst true, .write 0xFFF 0 0, .wait] } = true := by decide

/-- The first address past the window, and one before it. -/
theorem witness_TransactionOutsideTheWindowFaults :
    hostNext { curveE with inbox := [.read 0x1000] } ∧ curveE.cfg.base + 0xFFF < 0x1000 ∧
      (0xFFF < (Config.mk 32 0x1000).base) :=
  ⟨curveE_hostNext _, by decide, by decide⟩

end Sys2Proof.Tests
end

