-- ==== Sys2Proof/Proofs/FieldHelpers.lean ====
section
/-! PROOFS. The field helpers of 41_field_arithmetic R111 are residues of exact integers, so the two laws of `residue`
settle all four. -/

namespace Sys2Proof.Proofs

open Sys2Proof.Machine Sys2Proof.Laws

/-- For a positive modulus, `residue` answers the normalised remainder of 00_scope R10. -/
theorem residue_eq_and_lt (v : Int) {m : Nat} (hm : 0 < m) : (residue v m : Int) = v % m ∧ residue v m < m :=
  ⟨residue_eq v hm, residue_lt v hm⟩

/-- Settles O26: each helper is by definition the residue of its exact integer, and m ≥ 2 makes the modulus positive. -/
theorem fieldHelpersAnswerResidues : Obligations.FieldHelpersAnswerResidues := by
  intro m u v hm
  have hpos : 0 < m := by omega
  refine ⟨?sum, ?difference, ?product, ?negation⟩
  case sum => exact residue_eq_and_lt (u + v) hpos
  case difference => exact residue_eq_and_lt (u - v) hpos
  case product => exact residue_eq_and_lt (u * v) hpos
  case negation => exact residue_eq_and_lt (-u) hpos

end Sys2Proof.Proofs
end

