-- ==== Sys2Proof/Proofs/Invariant.lean ====
section
/-! PROOFS. The invariant holds at reset and every step keeps it. Outside a reset, `State.Inv` speaks only of the engine,
the parameters, the error state, DONE and the results, so the host's actions and the writes off CTRL that leave those
alone need one argument (`inv_of_keepsCore`); acceptance, tick, completion and reset have one lemma each. -/

namespace Sys2Proof.Proofs

open Sys2Proof.Machine Sys2Proof.Laws

/-- What the invariant reads of a state with rst_n deasserted, DONE and the operand registers apart, is the same in `t`
as in `s`. -/
structure KeepsCore (s t : State) : Prop where
  cfg : t.cfg = s.cfg
  rstN : t.rstN = s.rstN
  eng : t.eng = s.eng
  fatal : t.fatal = s.fatal
  err : t.err = s.err
  rInf : t.rInf = s.rInf
  x3 : t.regs.x3 = s.regs.x3
  y3 : t.regs.y3 = s.regs.y3

/-- Such a state keeps the invariant if its registers fit and DONE is not newly set (10_state R22, 70 R178). -/
theorem inv_of_keepsCore {s t : State} (hs : s.Inv) (hr : s.rstN = true) (h : KeepsCore s t)
    (hregs : t.regs.fits t.cfg.w) (hdone : t.done = true → s.done = true) : t.Inv where
  legal := h.cfg ▸ hs.legal
  regsFit := hregs
  snapFits r hb := h.cfg ▸ hs.snapFits r (h.eng ▸ hb)
  busyQuiet hb := by
    have hb' : s.busy = true := by simpa only [State.busy, h.eng] using hb
    obtain ⟨hd, he, hf⟩ := hs.busyQuiet hb'
    exact ⟨by simpa [hd] using hdone, h.err.trans he, h.fatal.trans hf⟩
  fatalCode := by rw [h.fatal, h.err]; exact hs.fatalCode
  identityZero := by rw [h.rInf, h.x3, h.y3]; exact hs.identityZero
  outcomeFixed r hb := hs.outcomeFixed r (h.eng ▸ hb)
  heldInReset hn := by rw [h.rstN, hr] at hn; cases hn

/-- The host's side is no part of the invariant. -/
theorem inv_hostSide {s : State} (hs : s.Inv) (hr : s.rstN = true) (inbox : List HostItem) (resp : List BusResp) :
    State.Inv { s with inbox := inbox, resp := resp } :=
  inv_of_keepsCore hs hr ⟨rfl, rfl, rfl, rfl, rfl, rfl, rfl, rfl⟩ hs.regsFit id

/-- The response of a transaction keeps the invariant. -/
theorem inv_respond {s : State} (hs : s.Inv) (hr : s.rstN = true) (r : BusResp) : (s.respond r).Inv :=
  inv_hostSide hs hr _ _

/-! ## Reset -/

/-- The value 0 is below 2^W. -/
theorem toNat_zero_lt_two_pow (w : Nat) : (0#1024).toNat < 2 ^ w := by
  rw [BitVec.toNat_zero]
  exact Nat.two_pow_pos w

/-- The operand registers at reset hold values below 2^W. -/
theorem zero_fits (w : Nat) : RegFile.zero.fits w := by
  intro r
  rw [RegFile.get_zero]
  exact toNat_zero_lt_two_pow w

/-- The reset values of 10_state R52 satisfy the invariant, at either level of rst_n and whatever the host's side holds. -/
theorem inv_resetValues {c : Config} (hc : c.wf = true) (level : Bool) (inbox : List HostItem) (resp : List BusResp)
    (draws : Nat) :
    State.Inv { State.resetOf c with rstN := level, inbox := inbox, resp := resp, draws := draws } where
  legal := hc
  regsFit := zero_fits c.w
  snapFits _ h := nomatch h
  busyQuiet := nofun
  fatalCode := ⟨nofun, nofun⟩
  identityZero h := nomatch h
  outcomeFixed _ h := nomatch h
  heldInReset _ := rfl

/-- Settles O55: the state after reset holds the reset values, rst_n deasserted and the host's side empty. -/
theorem resetStateSatisfiesInv : Obligations.ResetStateSatisfiesInv :=
  fun _ hc => inv_resetValues hc true [] [] 0

/-! ## Requests, ticks and completions -/

/-- A point read from registers that hold values below 2^W has coordinates below 2^W (10_state R30). -/
theorem pointOf_fits {w : Nat} {x y : Operand} (hx : x.toNat < 2 ^ w) (hy : y.toNat < 2 ^ w) (inf : Bool) :
    (pointOf inf x y).fits w := by
  cases inf
  · exact ⟨hx, hy⟩
  · trivial

/-- The snapshot of registers that fit fits (10_state R43). -/
theorem snapshot_fits {s : State} (h : s.regs.fits s.cfg.w) (op : BitVec 4) : (s.snapshot op).fits s.cfg.w :=
  ⟨h .a, h .b, h .p, h .x1, h .k, pointOf_fits (h .x1) (h .y1) s.inf1, pointOf_fits (h .x2) (h .y2) s.inf2⟩

/-- Acceptance keeps the invariant: it comes with FATAL = 0, clears DONE and ERR, and starts SMUL's loop at the variables
whose outcome is that of Execute (40_command_engine R99, R104). -/
theorem inv_accept {s : State} (hs : s.Inv) (hr : s.rstN = true) (hf : s.fatal = false) (op : BitVec 4) :
    (s.accept op).Inv where
  legal := hs.legal
  regsFit := hs.regsFit
  snapFits r hb := by cases hb; exact snapshot_fits hs.regsFit op
  busyQuiet _ := ⟨rfl, rfl, hf⟩
  fatalCode := by simp [hf]
  identityZero := hs.identityZero
  outcomeFixed r hb := by cases hb; exact start_outcome _ _
  heldInReset hn := by rw [State.accept_rstN, hr] at hn; cases hn

/-- A request keeps the invariant, accepted or not (40_command_engine R99). -/
theorem inv_request {s : State} (hs : s.Inv) (hr : s.rstN = true) (op : BitVec 4) : (s.request op).Inv := by
  obtain ⟨-, hf, h⟩ | ⟨-, h⟩ := request_cases s op <;> rw [h]
  · exact inv_accept hs hr hf op
  · exact inv_of_keepsCore hs hr ⟨rfl, rfl, rfl, rfl, rfl, rfl, rfl, rfl⟩ hs.regsFit id

/-- A busy engine's tick leaves the snapshot and the outcome of the command alone (10_state R44). -/
theorem tick_running {s : State} {r' : Running} (h : s.tick.eng = .busy r') :
    ∃ r, s.eng = .busy r ∧ r'.snap = r.snap ∧ r'.outcome = r.outcome := by
  unfold State.tick at h
  split at h
  · next he => rw [he] at h; cases h
  · next r he => cases h; exact ⟨r, he, rfl, advance_outcome r _ _⟩

/-- An engine tick keeps the invariant. -/
theorem inv_tick {s : State} (hs : s.Inv) (hr : s.rstN = true) : s.tick.Inv where
  legal := by rw [State.tick_cfg]; exact hs.legal
  regsFit := by rw [State.tick_regs, State.tick_cfg]; exact hs.regsFit
  snapFits r' hb := by
    obtain ⟨r, he, hsnap, -⟩ := tick_running hb
    rw [hsnap, State.tick_cfg]
    exact hs.snapFits r he
  busyQuiet hb := by
    rw [State.tick_busy] at hb
    simpa using hs.busyQuiet hb
  fatalCode := by simpa using hs.fatalCode
  identityZero := by simpa using hs.identityZero
  outcomeFixed r' hb := by
    obtain ⟨r, he, hsnap, ho⟩ := tick_running hb
    rw [hsnap, ho]
    exact hs.outcomeFixed r he
  heldInReset hn := by rw [State.tick_rstN, hr] at hn; cases hn

/-- Setting a register to a value below 2^W keeps the registers below 2^W (10_state R22). -/
theorem set_fits {f : RegFile} {w : Nat} (hf : f.fits w) (r : Reg) {v : Operand} (hv : v.toNat < 2 ^ w) :
    (f.set r v).fits w := by
  intro r'
  rw [RegFile.get_set]
  split
  · exact hv
  · exact hf r'

/-- A residue modulo a P that fits is written without a cut (10_state R49). -/
theorem ofNat_lt_two_pow {x p w : Nat} (hx : x < p) (hp : p < 2 ^ w) : (BitVec.ofNat 1024 x).toNat < 2 ^ w := by
  rw [BitVec.toNat_ofNat]
  exact (Nat.mod_le x _).trans_lt (hx.trans hp)

/-- Committing a result of `Execute` keeps the registers below 2^W: it is below a P that fits (10_state R49). -/
theorem commit_fits {s : State} {sn : Snapshot} {res : Result} {w : Nat} (hs : s.regs.fits w)
    (hp : sn.p.toNat < 2 ^ w) (h : execute sn = .ok res) : (s.commit res).regs.fits w := by
  have hzero := toNat_zero_lt_two_pow w
  obtain ⟨q, rfl, hq⟩ | ⟨x, rfl, hx⟩ | ⟨b, rfl⟩ := execute_result h
  · cases q with
    | identity => exact set_fits (set_fits hs .x3 hzero) .y3 hzero
    | affine x y =>
      obtain ⟨hx, hy⟩ := (inRange_affine ..).1 hq
      exact set_fits (set_fits hs .x3 (ofNat_lt_two_pow hx hp)) .y3 (ofNat_lt_two_pow hy hp)
  · exact set_fits (set_fits hs .x3 (ofNat_lt_two_pow hx hp)) .y3 hzero
  · exact hs

/-- Whatever is committed, an Identity result has X3 = Y3 = 0 (10_state R49). -/
theorem commit_identityZero {s : State} (hs : s.rInf = true → s.regs.x3 = 0 ∧ s.regs.y3 = 0) (res : Result) :
    (s.commit res).rInf = true → (s.commit res).regs.x3 = 0 ∧ (s.commit res).regs.y3 = 0 := by
  cases res with
  | point q =>
    cases q with
    | identity => exact fun _ => ⟨rfl, rfl⟩
    | affine x y => exact fun h => nomatch h
  | inverse x => exact fun h => nomatch h
  | onCurve b => exact hs

/-- The end of a completion keeps the invariant, whatever the code, once the results satisfy it: the engine is idle, and
FATAL, 0 before, is set exactly for ERR_FATAL (40_command_engine R101, 60_exceptions R155). -/
theorem inv_finish {s : State} (hlegal : s.cfg.wf = true) (hr : s.rstN = true) (hf : s.fatal = false)
    (hregs : s.regs.fits s.cfg.w) (hzero : s.rInf = true → s.regs.x3 = 0 ∧ s.regs.y3 = 0) (e : ErrCode) :
    (s.reportError e).finish.Inv where
  legal := hlegal
  regsFit := hregs
  snapFits _ h := nomatch h
  busyQuiet := nofun
  fatalCode := by simp [hf]
  identityZero := hzero
  outcomeFixed _ h := nomatch h
  heldInReset hn := by simp [hr] at hn

/-- The completion event keeps the invariant (40_command_engine R101, R103). -/
theorem inv_engineComplete {s : State} {r : Running} (hs : s.Inv) (hr : s.rstN = true) (he : s.eng = .busy r) :
    s.engineComplete.Inv := by
  have hbusy : s.busy = true := by rw [State.busy, he]; rfl
  obtain ⟨-, -, hf⟩ := hs.busyQuiet hbusy
  obtain ⟨-, -, hp, -⟩ := hs.snapFits r he
  obtain ⟨res, ho, h⟩ | ⟨e, -, h⟩ := engineComplete_busy he <;> rw [h]
  · have hexec : execute r.snap = .ok res := hs.outcomeFixed r he ▸ ho
    exact inv_finish (by simpa using hs.legal) (by simpa using hr) (by simpa using hf)
      (by simpa using commit_fits hs.regsFit hp hexec) (commit_identityZero hs.identityZero res) .none
  · exact inv_finish hs.legal hr hf hs.regsFit hs.identityZero e

/-! ## The host's actions -/

/-- The instruction of a CTRL write keeps the invariant. -/
theorem inv_exec {s t : State} {i : Instr} (hs : s.Inv) (hr : s.rstN = true) (h : exec i s = .next t) : t.Inv := by
  obtain ⟨op, rfl⟩ | rfl | ⟨op, rfl⟩ := exec_cases h
  · exact inv_request hs hr op
  · exact inv_resetValues hs.legal _ _ _ _
  · exact inv_of_keepsCore hs hr ⟨rfl, rfl, rfl, rfl, rfl, rfl, rfl, rfl⟩ hs.regsFit id

/-- No CTRL write moves the level of rst_n. -/
theorem exec_rstN {s t : State} {i : Instr} (h : exec i s = .next t) : t.rstN = s.rstN := by
  obtain ⟨op, rfl⟩ | rfl | ⟨op, rfl⟩ := exec_cases h
  · obtain ⟨-, -, h⟩ | ⟨-, h⟩ := request_cases s op <;> rw [h] <;> rfl
  · rfl
  · rfl

/-- No bus write reaches a register the bus cannot write (10_state R24). -/
theorem writeLoc_get_readOnly (s : State) (l : Loc) (d : Word) {r : Reg} (hr : r.busWritable = false) :
    (s.writeLoc l d).regs.get r = s.regs.get r := by
  cases l with
  | word r' j =>
    simp only [State.writeLoc]
    split
    next hw =>
      have hne : r ≠ r' := by rintro rfl; simp [hr] at hw
      simp [hne]
    next => rfl
  | _ => rfl

/-- A write off CTRL changes nothing of the engine, the error state and the results. -/
theorem writeLoc_keepsCore (s : State) (l : Loc) (d : Word) : KeepsCore s (s.writeLoc l d) :=
  ⟨by simp, by simp, by simp, by simp, by simp, by simp, writeLoc_get_readOnly s l d (r := .x3) rfl,
    writeLoc_get_readOnly s l d (r := .y3) rfl⟩

/-- A write of an operand word is masked to W bits (10_state R22). -/
theorem writeLoc_fits {s : State} (hs : s.regs.fits s.cfg.w) (l : Loc) (d : Word) :
    (s.writeLoc l d).regs.fits s.cfg.w := by
  cases l with
  | word r j =>
    simp only [State.writeLoc]
    split
    · exact set_fits hs r (lowBits_toNat_lt s.cfg.w _)
    · exact hs
  | _ => exact hs

/-- A write off CTRL does not set DONE: STATUS.DONE is write-1-to-clear (10_state R33). -/
theorem writeLoc_done {s : State} {l : Loc} {d : Word} (h : (s.writeLoc l d).done = true) : s.done = true := by
  cases l with
  | status => exact ((Bool.and_eq_true ..).mp h).1
  | word r j =>
    simp only [State.writeLoc] at h
    split at h <;> exact h
  | _ => exact h

/-- A write off CTRL keeps the invariant. -/
theorem inv_writeLoc {s : State} (hs : s.Inv) (hr : s.rstN = true) (l : Loc) (d : Word) : (s.writeLoc l d).Inv :=
  inv_of_keepsCore hs hr (writeLoc_keepsCore s l d)
    (by rw [State.writeLoc_cfg]; exact writeLoc_fits hs.regsFit l d) writeLoc_done

/-- Every action of the host keeps the invariant. -/
theorem inv_perform {s t : State} {item : HostItem} (hs : s.Inv) (hr : s.rstN = true)
    (h : s.perform item = .next t) : t.Inv := by
  obtain ⟨r, rfl⟩ | ⟨d, u, hu, rfl⟩ | ⟨l, d, rfl⟩ | ⟨r, rfl⟩ | rfl | rfl := perform_cases h
  · exact inv_respond hs hr r
  · exact inv_respond (inv_exec hs hr hu) ((exec_rstN hu).trans hr) _
  · exact inv_respond (inv_writeLoc hs hr l d) (by simpa using hr) _
  · exact inv_hostSide hs hr _ _
  · exact hs
  · exact inv_resetValues hs.legal _ _ _ _

/-- Settles O56: a step is a completion event, an engine tick with or without a host action after it, or a cycle of
reset, and each keeps the invariant. -/
theorem stepKeepsInv : Obligations.StepKeepsInv := by
  intro s t hs hstep
  obtain ⟨hr, ⟨r, he, -⟩, rfl⟩ | ⟨hr, -, -, rfl⟩ | ⟨hr, -, item, rest, -, hp⟩ | ⟨-, -, rfl⟩ | ⟨-, level, rest, -, rfl⟩ :=
    step_cases hstep
  · exact inv_engineComplete hs hr he
  · exact inv_tick hs hr
  · have hr' : s.tick.rstN = true := by simpa using hr
    exact inv_perform (inv_hostSide (inv_tick hs hr) hr' rest s.tick.resp) hr' hp
  · exact inv_resetValues hs.legal _ _ _ _
  · exact inv_resetValues hs.legal _ _ _ _

end Sys2Proof.Proofs
end

