-- ==== Sys2Proof/Proofs/CommandOperands.lean ====
section
/-! PROOFS. What a command reads and what it writes: the outcome of `Execute` as a function of the fields its row of
10_state R48 reads, A and B modulo P (R25), and the frame of a request and of the completion after it (R24, R38). -/

namespace Sys2Proof.Proofs

open Sys2Proof.Machine Sys2Proof.Laws Sys2Proof.Expect

/-! ## `Execute` by cases of the opcode -/

/-- A reserved opcode names no command (30_encoding R83). -/
theorem ofOp_reserved {op : BitVec 4} (h : reservedOp op = true) : Command.ofOp op = none := by
  have hall : ∀ op : BitVec 4, reservedOp op = true → Command.ofOp op = none := by decide
  exact hall op h

/-- CHK is the command of opcode 6 (30_encoding R82). -/
theorem ofOp_eq_chk_iff (op : BitVec 4) : Command.ofOp op = some .chk ↔ op = 6 := by
  revert op
  decide

/-- A reserved opcode ends with BADOP (40_command_engine R105). -/
theorem execute_reserved {sn : Snapshot} (h : Command.ofOp sn.op = none) : execute sn = .error .badop := by
  rw [execute, h]

/-- The outcome of a valid opcode: the first check that fails, else the operation (40_command_engine R102). -/
theorem execute_command {sn : Snapshot} {c : Command} (h : Command.ofOp sn.op = some c) :
    execute sn = if checkOperands sn c = .none then runCommand sn c else .error (checkOperands sn c) := by
  rw [execute, h]

/-- Snapshots with the same opcode have the same outcome where its command, if any, checks and runs alike. -/
theorem execute_congr {sn sn' : Snapshot} (hop : sn'.op = sn.op)
    (h : ∀ c, Command.ofOp sn.op = some c →
      checkOperands sn' c = checkOperands sn c ∧ runCommand sn' c = runCommand sn c) :
    execute sn' = execute sn := by
  cases hc : Command.ofOp sn.op with
  | none => rw [execute_reserved hc, execute_reserved (hop ▸ hc)]
  | some c =>
    obtain ⟨hcheck, hrun⟩ := h c hc
    rw [execute_command hc, execute_command (hop ▸ hc), hcheck, hrun]

/-- The checks read P, and the points in the command's columns of 40_command_engine R102. -/
theorem checkOperands_congr {sn sn' : Snapshot} {c : Command} (hp : sn'.p = sn.p)
    (h1 : c.checksP1 = true → sn'.p1 = sn.p1) (h2 : c.checksP2 = true → sn'.p2 = sn.p2) :
    checkOperands sn' c = checkOperands sn c := by
  have hr1 : (c.checksP1 && !sn'.p1.inRange sn.p.toNat) = (c.checksP1 && !sn.p1.inRange sn.p.toNat) := by
    cases hc : c.checksP1
    · rfl
    · rw [h1 hc]
  have hr2 : (c.checksP2 && !sn'.p2.inRange sn.p.toNat) = (c.checksP2 && !sn.p2.inRange sn.p.toNat) := by
    cases hc : c.checksP2
    · rfl
    · rw [h2 hc]
  rw [checkOperands, hp, hr1, hr2, checkOperands]

/-- The outcome of the command `c`, where the snapshots agree on what its checks and its operation read. -/
theorem execute_congr_of_command {sn sn' : Snapshot} {c : Command} (hc : Command.ofOp sn.op = some c)
    (hop : sn'.op = sn.op) (hp : sn'.p = sn.p) (h1 : c.checksP1 = true → sn'.p1 = sn.p1)
    (h2 : c.checksP2 = true → sn'.p2 = sn.p2) (hrun : runCommand sn' c = runCommand sn c) :
    execute sn' = execute sn := by
  refine execute_congr hop fun c' hc' => ?_
  obtain rfl : c = c' := Option.some.inj (hc.symm.trans hc')
  exact ⟨checkOperands_congr hp h1 h2, hrun⟩

/-- Settles O23: each command's checks and operation read only the fields of its row. -/
theorem commandsReadOnlyTheirOperands : Obligations.CommandsReadOnlyTheirOperands := by
  intro sn sn' hop
  refine ⟨?add, ?dbl, ?neg, ?inv, ?smul, ?chk, ?reserved⟩
  case add =>
    intro h hp ha h1 h2
    exact execute_congr_of_command (c := .add) (by rw [h]; rfl) hop hp (fun _ => h1) (fun _ => h2)
      (by simp only [runCommand, runAdd, hp, ha, h1, h2])
  case dbl =>
    intro h hp ha h1
    exact execute_congr_of_command (c := .dbl) (by rw [h]; rfl) hop hp (fun _ => h1) nofun
      (by simp only [runCommand, runDbl, hp, ha, h1])
  case neg =>
    intro h hp h1
    exact execute_congr_of_command (c := .neg) (by rw [h]; rfl) hop hp (fun _ => h1) nofun
      (by simp only [runCommand, runNeg, hp, h1])
  case inv =>
    intro h hp hx
    exact execute_congr_of_command (c := .inv) (by rw [h]; rfl) hop hp nofun nofun
      (by simp only [runCommand, runInv, hp, hx])
  case smul =>
    intro h hp ha h1 hk hs
    exact execute_congr_of_command (c := .smul) (by rw [h]; rfl) hop hp (fun _ => h1) nofun
      (by simp only [runCommand, runSmul, Snapshot.n, hp, ha, h1, hk, hs])
  case chk =>
    intro h hp ha hb h1
    exact execute_congr_of_command (c := .chk) (by rw [h]; rfl) hop hp (fun _ => h1) nofun
      (by simp only [runCommand, runChk, hp, ha, hb, h1])
  case reserved =>
    intro h
    rw [execute_reserved (ofOp_reserved h), execute_reserved (ofOp_reserved (hop ▸ h))]

/-! ## The coefficients modulo P -/

/-- Congruent integers have the same residue; modulo 0 they are equal. -/
theorem residue_congr {u v : Int} {m : Nat} (h : u ≡ v [ZMOD m]) : residue u m = residue v m := by
  rcases Nat.eq_zero_or_pos m with rfl | hm
  · have huv : u = v := by simpa [Int.ModEq] using h
    rw [huv]
  · exact (residue_eq_iff u v hm).2 h

/-- The group law reads A in the slope of a doubling only, under a residue (42_point_ops R126). -/
theorem padd_congr_coefficient {a a' p : Nat} (h : (a' : Int) ≡ a [ZMOD p]) : padd a' p = padd a p := by
  have hslope : slopeParts a' p = slopeParts a p := by
    funext x1 y1 x2 y2
    rw [slopeParts, slopeParts, residue_congr (h.add_left _)]
  funext q r
  cases q with
  | identity => rfl
  | affine x1 y1 =>
    cases r with
    | identity => rfl
    | affine x2 y2 => rw [padd, padd, hslope]

/-- The SMUL loop reads A through the group law only (43_scalar_multiply R140). -/
theorem smulLoop_congr_coefficient {a a' p : Nat} (h : padd a' p = padd a p) (w : SmulLoop) :
    smulLoop a' p w = smulLoop a p w := by
  have hiter : ∀ w, smulIter a' p w = smulIter a p w := fun w => by rw [smulIter, smulIter, h]
  have hfuel : ∀ f w, smulLoopFuel a' p f w = smulLoopFuel a p f w := by
    intro f
    induction f with
    | zero => exact fun _ => rfl
    | succ f ih => intro w; simp only [smulLoopFuel, hiter, ih]
  exact hfuel w.n w

/-- Scalar multiplication reads A through the group law only. -/
theorem psmul_congr_coefficient {a a' p : Nat} (h : padd a' p = padd a p) (q : Pt) (n : Int) :
    psmul a' p q n = psmul a p q n := by
  rw [psmul_eq_loop, psmul_eq_loop, smulLoop_congr_coefficient h]

/-- Membership reads A and B under a residue (42_point_ops R121). -/
theorem pchk_congr_coefficients {a a' b b' p : Nat} (ha : (a' : Int) ≡ a [ZMOD p]) (hb : (b' : Int) ≡ b [ZMOD p])
    (q : Pt) : pchk a' b' p q = pchk a b p q := by
  cases q with
  | identity => rfl
  | affine x y =>
    have hcurve := ((ha.mul_right (x : Int)).sub_left ((y : Int) * y - x * x * x)).sub hb
    rw [pchk, pchk, residue_congr hcurve]

/-- Settles O24: the checks read neither A nor B, and the operations read them through the slope and the curve equation,
both modulo P. -/
theorem coefficientsCountModuloP : Obligations.CoefficientsCountModuloP := by
  intro sn a' b' ha hb
  have ha' : (a'.toNat : Int) ≡ sn.a.toNat [ZMOD sn.p.toNat] := Int.natCast_modEq_iff.2 ha
  have hb' : (b'.toNat : Int) ≡ sn.b.toNat [ZMOD sn.p.toNat] := Int.natCast_modEq_iff.2 hb
  have hadd := padd_congr_coefficient ha'
  refine execute_congr rfl fun c _ => ⟨rfl, ?_⟩
  cases c with
  | add => simp only [runCommand, runAdd, hadd]
  | dbl => simp only [runCommand, runDbl, hadd]
  | neg => rfl
  | inv => rfl
  | smul => simp only [runCommand, runSmul, psmul_congr_coefficient hadd]; rfl
  | chk => simp only [runCommand, runChk, pchk_congr_coefficients ha' hb']

/-! ## What a request and a completion leave alone -/

/-- The operand side of `s`, its parameters, rst_n and the host's side are the same in `u`. -/
structure KeepsOperands (s u : State) : Prop where
  regs : ∀ r : Reg, r.busWritable = true → u.regs.get r = s.regs.get r
  inf1 : u.inf1 = s.inf1
  inf2 : u.inf2 = s.inf2
  kneg : u.kneg = s.kneg
  doneIe : u.doneIe = s.doneIe
  cfg : u.cfg = s.cfg
  rstN : u.rstN = s.rstN
  inbox : u.inbox = s.inbox
  resp : u.resp = s.resp

theorem KeepsOperands.refl (s : State) : KeepsOperands s s := ⟨fun _ _ => rfl, rfl, rfl, rfl, rfl, rfl, rfl, rfl, rfl⟩

theorem KeepsOperands.trans {s t u : State} (h : KeepsOperands s t) (k : KeepsOperands t u) : KeepsOperands s u where
  regs r hr := (k.regs r hr).trans (h.regs r hr)
  inf1 := k.inf1.trans h.inf1
  inf2 := k.inf2.trans h.inf2
  kneg := k.kneg.trans h.kneg
  doneIe := k.doneIe.trans h.doneIe
  cfg := k.cfg.trans h.cfg
  rstN := k.rstN.trans h.rstN
  inbox := k.inbox.trans h.inbox
  resp := k.resp.trans h.resp

/-- The meaning of an instruction that requests a command is the request (40_command_engine R99). -/
theorem exec_of_requestOp {i : Instr} {op : BitVec 4} (h : requestOp i = some op) (s : State) :
    exec i s = .next (s.request op) := by
  cases i <;> cases h <;> rfl

/-- A request changes no operand, accepted or not. -/
theorem request_keepsOperands (s : State) (op : BitVec 4) : KeepsOperands s (s.request op) := by
  obtain ⟨-, -, h⟩ | ⟨-, h⟩ := request_cases s op <;> rw [h] <;>
    exact ⟨fun _ _ => rfl, rfl, rfl, rfl, rfl, rfl, rfl, rfl, rfl⟩

/-- Registers other than X3 and Y3 are no result of a command (10_state R24, R48). -/
theorem commit_get_operand (s : State) (res : Result) {r : Reg} (hr : r.busWritable = true) :
    (s.commit res).regs.get r = s.regs.get r := by
  have hx : r ≠ .x3 := by rintro rfl; cases hr
  have hy : r ≠ .y3 := by rintro rfl; cases hr
  cases res with
  | point q => cases q <;> simp [State.commit, State.commitPoint, hx, hy]
  | inverse x => simp [State.commit, hx, hy]
  | onCurve b => rfl

/-- A completion changes no operand. -/
theorem engineComplete_keepsOperands (s : State) : KeepsOperands s s.engineComplete := by
  cases he : s.eng with
  | idle => rw [State.engineComplete, he]; exact .refl s
  | busy r =>
    obtain ⟨res, -, h⟩ | ⟨e, -, h⟩ := engineComplete_busy he <;> rw [h]
    · exact ⟨fun r hr => by simpa using commit_get_operand s res hr, by simp, by simp, by simp, by simp, by simp,
        by simp, by simp, by simp⟩
    · exact ⟨fun _ _ => rfl, rfl, rfl, rfl, rfl, rfl, rfl, rfl, rfl⟩

/-- Settles O38: neither the request nor the completion after it changes the operand side. -/
theorem commandsWriteNoOperand : Obligations.CommandsWriteNoOperand := by
  intro i op s t u hi ht hu
  rw [exec_of_requestOp hi] at ht
  cases ht
  have hreq := request_keepsOperands s op
  obtain ⟨hregs, hinf1, hinf2, hkneg, hie, hcfg, hrst, hinbox, hresp⟩ : KeepsOperands s u := by
    obtain rfl | rfl := hu
    · exact hreq
    · exact hreq.trans (engineComplete_keepsOperands _)
  exact ⟨hregs, hinf1, hinf2, hkneg, hie, hcfg, hrst, hinbox, hresp⟩

/-! ## ONCURVE -/

/-- What a success of `Execute` has gone through: a valid opcode, passing checks, its operation (40_command_engine R102). -/
theorem execute_ok {sn : Snapshot} {res : Result} (h : execute sn = .ok res) :
    ∃ c, Command.ofOp sn.op = some c ∧ checkOperands sn c = .none ∧ runCommand sn c = .ok res := by
  cases hc : Command.ofOp sn.op with
  | none => rw [execute_reserved hc] at h; cases h
  | some c =>
    rw [execute_command hc] at h
    split at h
    next hk => exact ⟨c, rfl, hk, h⟩
    next => cases h

/-- A point-valued operation answers no membership. -/
theorem pointResult_ne_onCurve (o : Except ErrCode Pt) (b : Bool) : pointResult o ≠ .ok (.onCurve b) := by
  cases o <;> exact nofun

/-- Only CHK answers a membership (10_state R48). -/
theorem op_of_execute_onCurve {sn : Snapshot} {b : Bool} (h : execute sn = .ok (.onCurve b)) : sn.op = 6 := by
  obtain ⟨c, hc, -, hrun⟩ := execute_ok h
  cases c with
  | add => exact absurd hrun (pointResult_ne_onCurve _ b)
  | dbl => exact absurd hrun (pointResult_ne_onCurve _ b)
  | neg => cases hrun
  | inv =>
    simp only [runCommand, runInv] at hrun
    split at hrun <;> cases hrun
  | smul => exact absurd hrun (pointResult_ne_onCurve _ b)
  | chk => exact (ofOp_eq_chk_iff _).1 hc

/-- A CHK that succeeds has P ≥ 2 and answers the membership of P1 (42_point_ops R122). -/
theorem execute_chk {sn : Snapshot} {res : Result} (hop : sn.op = 6) (h : execute sn = .ok res) :
    2 ≤ sn.p.toNat ∧ res = .onCurve (pchk sn.a.toNat sn.b.toNat sn.p.toNat sn.p1) := by
  obtain ⟨c, hc, hk, hrun⟩ := execute_ok h
  rw [(ofOp_eq_chk_iff _).2 hop] at hc
  cases hc
  cases hrun
  exact ⟨(checks_passed hk).1, rfl⟩

/-- `pchk` decides the curve equation (42_point_ops R121). -/
theorem pchk_iff_onCurve {p : Nat} (hp : 0 < p) (a b : Nat) (q : Pt) : pchk a b p q = true ↔ onCurve a b p q := by
  cases q with
  | identity => exact ⟨fun _ => trivial, fun _ => rfl⟩
  | affine x y =>
    rw [pchk, onCurve, beq_iff_eq, ← residue_eq _ hp]
    exact Int.natCast_eq_zero.symm

/-- A commit moves ONCURVE only to a membership (40_command_engine R103). -/
theorem commit_oncurve (s : State) {res : Result} (h : ∀ b, res ≠ .onCurve b) : (s.commit res).oncurve = s.oncurve := by
  cases res with
  | point q => exact State.commitPoint_oncurve s q
  | inverse x => rfl
  | onCurve b => exact absurd rfl (h b)

/-- Settles O39: ONCURVE moves only where a membership is committed, and only CHK has one. -/
theorem oncurveIsTheLastChk : Obligations.OncurveIsTheLastChk := by
  intro s r hs he
  have ho : r.outcome = execute r.snap := hs.outcomeFixed r he
  obtain ⟨res, hres, h⟩ | ⟨e, herr, h⟩ := engineComplete_busy he
  · rw [ho] at hres
    have honcurve : s.engineComplete.oncurve = (s.commit res).oncurve := by rw [h]; rfl
    rw [honcurve, hres]
    refine ⟨fun hop => commit_oncurve s ?_, ?_, nofun⟩
    · rintro b rfl
      exact hop (op_of_execute_onCurve hres)
    · intro hop _ _
      obtain ⟨hp, rfl⟩ := execute_chk hop hres
      exact pchk_iff_onCurve (by omega) _ _ _
  · rw [ho] at herr
    have honcurve : s.engineComplete.oncurve = s.oncurve := by rw [h]; rfl
    rw [herr]
    exact ⟨fun _ => honcurve, nofun, fun _ _ => honcurve⟩

end Sys2Proof.Proofs
end

