-- ==== Sys2Proof/Proofs/CtrlWrites.lean ====
section
/-! PROOFS. The CTRL write as the bus sees it: what its word decodes to by bit 1, the OP it stores, and why with FATAL set
only a reset gets the engine out (10_state R29, R37; 30_encoding R81). -/

namespace Sys2Proof.Proofs

open Sys2Proof.Machine Sys2Proof.Laws Sys2Proof.Expect

/-! ## Decoding by the strobes -/

/-- A row that compares all of OP fixes it in every word it hits (30_encoding R82). -/
theorem opField_of_hits {row : CtrlRow} {d : Word} (h : row.hits d = true) (hmask : opField row.mask = 15#4) :
    opField d = opField row.pat := by
  have hpat : d &&& row.mask = row.pat := by simpa [CtrlRow.hits] using h
  have hand : opField (d &&& row.mask) = opField d &&& opField row.mask := BitVec.extractLsb'_and
  rw [← hpat, hand, hmask]
  exact (BitVec.and_allOnes (x := opField d)).symm

/-- A CTRL write with bit 1 set is SRST, whatever else it holds (30_encoding R81). -/
theorem decodeWord_srst {d : Word} (h : d.getLsbD 1 = true) : decodeWord d = .srst := by
  rw [decodeWord, rowSrst_hits, if_pos h]

/-- A CTRL write with bit 1 clear requests the command of its OP field, or stores that field (30_encoding R81). -/
theorem decodeWord_of_not_srst {d : Word} (h : d.getLsbD 1 = false) :
    requestOp (decodeWord d) = some (opField d) ∨ decodeWord d = .setop (opField d) := by
  have command : ∀ {row : CtrlRow} {i : Instr}, row.hits d = true → opField row.mask = 15#4 →
      requestOp i = some (opField row.pat) → requestOp i = some (opField d) :=
    fun hrow hmask hi => by rw [opField_of_hits hrow hmask, hi]
  unfold decodeWord
  rw [rowSrst_hits, if_neg (ne_true_of_eq_false h)]
  iterate 6
    split
    next hrow => exact .inl (command hrow rfl rfl)
  split
  next => exact .inl rfl
  next => exact .inr rfl

/-- A request stores its opcode in CTRL.OP, accepted or not (10_state R29, log 16). -/
theorem request_ctrlOp (s : State) (op : BitVec 4) : (s.request op).ctrlOp = op := by
  obtain ⟨-, -, h⟩ | ⟨-, h⟩ := request_cases s op <;> rw [h] <;> rfl

/-- A CTRL write without SRST is a request with its OP field, or stores it and nothing else. -/
theorem exec_of_not_srst {d : Word} (h : d.getLsbD 1 = false) (s : State) :
    exec (decodeWord d) s = .next (s.request (opField d)) ∨
      exec (decodeWord d) s = .next { s with ctrlOp := opField d } := by
  obtain hreq | hset := decodeWord_of_not_srst h
  · exact .inl (exec_of_requestOp hreq s)
  · exact .inr (by rw [hset]; rfl)

/-! ## CTRL on the bus -/

/-- A full write of CTRL runs the instruction its data decodes to (30_encoding R80, 20_memory R65). -/
theorem busWrite_ctrl (s : State) (d : Word) : s.busWrite 0x008 d 0b1111 = respondOk (exec (decodeWord d) s) := rfl

/-- Settles O47: a request and SETOP store the OP field, SRST stores 0, and nothing else of CTRL is readable. -/
theorem ctrlStoresAndReadsOp : Obligations.CtrlStoresAndReadsOp := by
  intro s d
  refine ⟨rfl, fun hbit => ?_, fun hbit => ?_⟩
  · rw [busWrite_ctrl]
    obtain h | h := exec_of_not_srst hbit s <;> rw [h]
    · exact ⟨_, rfl, request_ctrlOp s (opField d)⟩
    · exact ⟨_, rfl, rfl⟩
  · rw [busWrite_ctrl, decodeWord_srst hbit]
    exact ⟨_, rfl, rfl⟩

/-! ## FATAL -/

/-- FATAL set with the engine idle, the code `e` and rst_n deasserted. -/
structure StuckFatal (e : ErrCode) (s : State) : Prop where
  fatal : s.fatal = true
  busy : s.busy = false
  err : s.err = e
  rstN : s.rstN = true

/-- A response leaves a fatal engine stuck. -/
theorem stuckFatal_respond {s : State} {e : ErrCode} (hs : StuckFatal e s) (r : BusResp) : StuckFatal e (s.respond r) :=
  ⟨hs.fatal, hs.busy, hs.err, hs.rstN⟩

/-- A request while FATAL is set is turned away (40_command_engine R99). -/
theorem request_of_fatal {s : State} (h : s.fatal = true) (op : BitVec 4) : s.request op = s.reject op := by
  obtain ⟨-, hf, -⟩ | ⟨-, hreq⟩ := request_cases s op
  · rw [h] at hf; cases hf
  · exact hreq

/-- A CTRL write without SRST leaves a fatal engine stuck. -/
theorem stuckFatal_exec {s t : State} {e : ErrCode} {d : Word} (hs : StuckFatal e s) (hbit : d.getLsbD 1 = false)
    (ht : exec (decodeWord d) s = .next t) : StuckFatal e t := by
  obtain h | h := exec_of_not_srst hbit s <;> rw [h] at ht <;> cases ht
  · rw [request_of_fatal hs.fatal]
    exact ⟨hs.fatal, hs.busy, hs.err, hs.rstN⟩
  · exact ⟨hs.fatal, hs.busy, hs.err, hs.rstN⟩

/-- A write off CTRL leaves a fatal engine stuck. -/
theorem stuckFatal_writeLoc {s : State} {e : ErrCode} (hs : StuckFatal e s) (l : Loc) (d : Word) :
    StuckFatal e (s.writeLoc l d) :=
  ⟨by simpa using hs.fatal, by simpa [State.busy] using hs.busy, by simpa using hs.err, by simpa using hs.rstN⟩

/-- CTRL stands at offset 0x008 and nowhere else (10_state R20). -/
theorem locate_eq_ctrl {off : Offset} (h : locate off = .ctrl) : off = 0x008 := by
  unfold locate at h
  split_ifs at h with _ _ hoff
  · exact hoff
  · split at h <;> cases h

/-- The offset of a window address, in numbers (20_memory R60). -/
theorem windowOffset_some {c : Config} {addr : Nat} {off : Offset} (h : windowOffset c addr = some off) :
    addr = c.base + off.toNat := by
  unfold windowOffset at h
  split at h
  next hin =>
    cases h
    rw [BitVec.toNat_ofNat]
    omega
  next => cases h

/-- A host action that is no reset leaves a fatal engine stuck. -/
theorem stuckFatal_perform {s t : State} {e : ErrCode} {item : HostItem} (hs : StuckFatal e s)
    (hitem : isReset s.cfg item = false) (ht : s.perform item = .next t) : StuckFatal e t := by
  cases item with
  | read addr =>
    rw [State.perform] at ht
    split at ht
    · cases ht
    · cases ht; exact stuckFatal_respond hs _
  | write addr d strb =>
    rw [State.perform] at ht
    split at ht
    · cases ht
    next off hoff =>
    by_cases hstrb : strb = 0b1111
    · obtain ⟨-, h⟩ | ⟨hl, u, hu, h⟩ | ⟨-, h⟩ := busWrite_cases s off d strb <;> rw [h] at ht <;> cases ht
      · exact stuckFatal_respond hs _
      · have hbit : d.getLsbD 1 = false := by
          have haddr : addr = s.cfg.base + 8 := by rw [windowOffset_some hoff, locate_eq_ctrl hl]; rfl
          simpa [isReset, haddr, hstrb] using hitem
        exact stuckFatal_respond (stuckFatal_exec hs hbit hu) _
      · exact stuckFatal_respond (stuckFatal_writeLoc hs _ d) _
    · rw [State.busWrite, if_neg (fun hfull => hstrb hfull.2)] at ht
      cases ht
      exact stuckFatal_respond hs _
  | wait =>
    cases ht
    split
    · exact stuckFatal_respond hs _
    · exact ⟨hs.fatal, hs.busy, hs.err, hs.rstN⟩
  | rst level =>
    cases level
    · cases hitem
    · cases ht; exact hs

/-- Settles O40: an idle engine has no completion event, its tick moves nothing readable, and no host action but a reset
clears FATAL or has a request accepted. -/
theorem fatalBlocksUntilReset : Obligations.FatalBlocksUntilReset := by
  intro s t hf hidle hr hitem hstep
  have htick : StuckFatal s.err s.tick := ⟨by simpa, by simpa, by simp, by simpa⟩
  obtain ⟨hf', hb', he', hr'⟩ : StuckFatal s.err t := by
    obtain ⟨-, ⟨r, he, -⟩, -⟩ | ⟨-, -, -, rfl⟩ | ⟨-, -, item, rest, hin, hp⟩ | ⟨hn, -, -⟩ | ⟨hn, -⟩ := step_cases hstep
    · rw [State.busy, he] at hidle; cases hidle
    · exact htick
    · have hstuck : StuckFatal s.err { s.tick with inbox := rest } := ⟨htick.fatal, htick.busy, htick.err, htick.rstN⟩
      refine stuckFatal_perform hstuck ?_ hp
      simpa using hitem item (by rw [hin]; rfl)
    · rw [hr] at hn; cases hn
    · rw [hr] at hn; cases hn
  exact ⟨hf', hb', he', hr'⟩

end Sys2Proof.Proofs
end

