-- ==== Sys2Proof/Proofs/OperandWindows.lean ====
section
/-! PROOFS. The register map off CTRL: which location an offset names, which writes are ignored, and the words of an
operand window, bit by bit (10_state R20 to R24, R51). -/

namespace Sys2Proof.Proofs

open Sys2Proof.Machine Sys2Proof.Laws

/-! ## The map -/

/-- From 0x018 on the map holds operand windows and reserved offsets (10_state R20). -/
theorem locate_of_ge {off : Offset} (h : 0x018 ≤ off.toNat) :
    (Reg.atOffset off.toNat = none ∧ locate off = .reserved) ∨
      ∃ r j, Reg.atOffset off.toNat = some r ∧ locate off = .word r j := by
  have hne : ∀ c : Offset, c.toNat < 0x018 → off ≠ c := by rintro c hc rfl; omega
  unfold locate
  iterate 6 rw [if_neg (hne _ (by decide))]
  cases hr : Reg.atOffset off.toNat with
  | none => exact .inl ⟨rfl, rfl⟩
  | some r => exact .inr ⟨r, _, rfl, rfl⟩

/-- The window an offset lies in holds it (10_state R20). -/
theorem window_of_atOffset {off : Nat} {r : Reg} (h : Reg.atOffset off = some r) :
    r.window ≤ off ∧ off < r.window + 0x80 := by
  simpa using List.find?_some h

/-- The windows fill 0x100 to 0x5FF (10_state R20). -/
theorem window_bounds (r : Reg) : 0x100 ≤ r.window ∧ r.window ≤ 0x580 := by
  cases r <;> decide

/-- X3 and Y3 have the last two windows (10_state R20, R24). -/
theorem busWritable_of_window_ge {r : Reg} (h : 0x480 < r.window) : r.busWritable = false := by
  revert h
  cases r <;> decide

/-- The reserved offsets between the control registers and the windows, and past the windows (10_state R20). -/
theorem locate_reserved {off : Offset} (h : (0x018 ≤ off.toNat ∧ off.toNat < 0x100) ∨ 0x600 ≤ off.toNat) :
    locate off = .reserved := by
  obtain ⟨-, hl⟩ | ⟨r, j, hr, -⟩ := locate_of_ge (off := off) (by omega)
  · exact hl
  · have hoff := window_of_atOffset hr
    have hwin := window_bounds r
    omega

/-! ## Writes that are ignored -/

/-- A location whose full write the machine ignores: ID, CFG, a reserved offset, a word of X3 or Y3 (20_memory R65). -/
inductive IgnoresWrites : Loc → Prop
  | id : IgnoresWrites .id
  | cfg : IgnoresWrites .cfg
  | reserved : IgnoresWrites .reserved
  | readOnly {r : Reg} {j : Nat} (h : r.busWritable = false) : IgnoresWrites (.word r j)

/-- Nothing at or above 0x500 can be written (10_state R20, R24). -/
theorem ignoresWrites_of_ge {off : Offset} (h : 0x500 ≤ off.toNat) : IgnoresWrites (locate off) := by
  obtain ⟨-, hl⟩ | ⟨r, j, hr, hl⟩ := locate_of_ge (off := off) (by omega) <;> rw [hl]
  · exact .reserved
  · have hoff := window_of_atOffset hr
    exact .readOnly (busWritable_of_window_ge (by omega))

/-- ID and CFG are the aligned offsets below 0x008 (10_state R20). -/
theorem ignoresWrites_of_lt {off : Offset} (ha : off.toNat % 4 = 0) (h : off.toNat < 0x008) :
    IgnoresWrites (locate off) := by
  obtain h0 | h4 : off.toNat = (0x000 : Offset).toNat ∨ off.toNat = (0x004 : Offset).toNat := by
    simp only [BitVec.ofNat_eq_ofNat, BitVec.toNat_ofNat]
    omega
  · rw [BitVec.eq_of_toNat_eq h0]; exact .id
  · rw [BitVec.eq_of_toNat_eq h4]; exact .cfg

/-- Such a write changes nothing. -/
theorem writeLoc_ignored {l : Loc} (h : IgnoresWrites l) (s : State) (d : Word) : s.writeLoc l d = s := by
  cases h with
  | id => rfl
  | cfg => rfl
  | reserved => rfl
  | readOnly h => exact if_neg fun hw => by rw [h] at hw; cases hw.1

/-- Such a write changes nothing on the bus but the response, which is no error (20_memory R65). -/
theorem busWrite_ignored {off : Offset} (ha : off.toNat % 4 = 0) (h : IgnoresWrites (locate off)) (s : State) (d : Word) :
    s.busWrite off d 0b1111 = .next { s with resp := .write false :: s.resp } := by
  have hctrl : locate off ≠ .ctrl := by intro hl; rw [hl] at h; cases h
  rw [State.busWrite, if_pos ⟨(aligned_iff off).2 ha, rfl⟩, if_neg hctrl, writeLoc_ignored h]
  rfl

/-- Settles O45: ID, CFG, X3, Y3 and the reserved offsets are the locations that ignore writes, and a reserved one reads
0. -/
theorem readOnlyAndReservedLocations : Obligations.ReadOnlyAndReservedLocations := by
  intro s off d ha
  refine ⟨fun h => busWrite_ignored ha ?_ s d, fun h => ?_⟩
  · obtain hlow | hgap | hhigh := h
    · exact ignoresWrites_of_lt ha hlow
    · rw [locate_reserved (.inl hgap)]; exact .reserved
    · exact ignoresWrites_of_ge hhigh
  · rw [State.busRead, if_pos ((aligned_iff off).2 ha), locate_reserved h]
    rfl

/-- Settles O52: a write off CTRL is an error response, or a write of a location that holds none of these fields. -/
theorem operandWritesDoNotDisturbTheCommand : Obligations.OperandWritesDoNotDisturbTheCommand := by
  intro s t off d strb hoff ht
  obtain ⟨-, h⟩ | ⟨hl, -⟩ | ⟨-, h⟩ := busWrite_cases s off d strb
  · rw [h] at ht
    cases ht
    exact ⟨rfl, rfl, rfl, rfl, rfl, rfl, rfl, rfl⟩
  · exact absurd (locate_eq_ctrl hl) hoff
  · rw [h] at ht
    cases ht
    have hcore := writeLoc_keepsCore s (locate off) d
    exact ⟨hcore.eng, State.writeLoc_ctrlOp s _ d, hcore.err, hcore.fatal, State.writeLoc_oncurve s _ d, hcore.rInf,
      hcore.x3, hcore.y3⟩

/-! ## The words of an operand window -/

/-- A word below NW reads its bits of a value below 2^W (10_state R21). -/
theorem operandWord_of_lt {c : Config} {v : Operand} {j : Nat} (hv : v.toNat < 2 ^ c.w) (hj : j < c.nw) :
    operandWord c v j = v.extractLsb' (32 * j) 32 := by
  rw [operandWord, if_pos hj, lowBits_of_lt hv, wordOf]

/-- A word at or above NW reads 0 (10_state R23). -/
theorem operandWord_of_ge {c : Config} {j : Nat} (hj : c.nw ≤ j) (v : Operand) : operandWord c v j = 0 :=
  if_neg (by omega)

/-- A write of a word at or above NW changes nothing (10_state R23). -/
theorem writeLoc_word_of_ge {s : State} {j : Nat} (hj : s.cfg.nw ≤ j) (r : Reg) (d : Word) :
    s.writeLoc (.word r j) d = s :=
  if_neg fun hw => absurd hw.2 (by omega)

/-- Settles O43: the words of a window are at its offset and up, those below NW read their bits, the others 0. -/
theorem operandWindowLayout : Obligations.OperandWindowLayout := by
  refine ⟨rfl, fun s r j d hv h32 => ⟨fun hj => ?_, fun hj => ⟨?_, ?_⟩⟩⟩
  · rw [busRead_word s r h32, operandWord_of_lt hv hj]
  · rw [busRead_word s r h32, operandWord_of_ge hj]
  · rw [busWrite_word s r h32, writeLoc_word_of_ge hj]
    rfl

/-- Legal parameters have W of at most 1024 (00_scope R5). -/
theorem w_le_of_wf {c : Config} (h : c.wf = true) : c.w ≤ 1024 := by
  simp only [Config.wf, Bool.and_eq_true, decide_eq_true_eq] at h
  obtain ⟨⟨-, hw⟩, -⟩ := h
  exact hw

/-- Legal parameters give at most 32 words (00_scope R5). -/
theorem nw_le_of_wf {c : Config} (h : c.wf = true) : c.nw ≤ 32 := by
  have hw := w_le_of_wf h
  unfold Config.nw
  omega

/-- The bits of a register after a write of word `j`: those of the data in the word, the old ones elsewhere, none at or
above W (10_state R22, 20_memory R65). -/
theorem getLsbD_operandWithWord (c : Config) (v : Operand) (j : Nat) (d : Word) {i : Nat} (hi : i < 1024) :
    (operandWithWord c v j d).getLsbD i =
      (decide (i < c.w) && if 32 * j ≤ i ∧ i < 32 * j + 32 then d.getLsbD (i - 32 * j) else v.getLsbD i) := by
  rw [operandWithWord, getLsbD_lowBits, getLsbD_withWord v j d i hi, decide_eq_true hi, Bool.true_and]

/-- Bit `i` of the written word. -/
theorem getLsbD_operandWithWord_same (c : Config) (v : Operand) {j i : Nat} (d : Word) (hj : j < 32) (hi : i < 32) :
    (operandWithWord c v j d).getLsbD (32 * j + i) = (decide (32 * j + i < c.w) && d.getLsbD i) := by
  rw [getLsbD_operandWithWord c v j d (by omega), if_pos (by omega), Nat.add_sub_cancel_left]

/-- A bit of another word. -/
theorem getLsbD_operandWithWord_other {c : Config} (hc : c.w ≤ 1024) (v : Operand) {j i : Nat} (d : Word) (hi : i < c.w)
    (hj : i / 32 ≠ j) : (operandWithWord c v j d).getLsbD i = v.getLsbD i := by
  rw [getLsbD_operandWithWord c v j d (by omega), if_neg (by omega), decide_eq_true hi, Bool.true_and]

/-- A word below NW reads bit `i` of a value that holds no bit at or above W. -/
theorem getLsbD_operandWord {c : Config} {v : Operand} {j i : Nat} (hv : v.toNat < 2 ^ c.w) (hj : j < c.nw)
    (hi : i < 32) : (operandWord c v j).getLsbD i = v.getLsbD (32 * j + i) := by
  rw [operandWord_of_lt hv hj, BitVec.getLsbD_extractLsb', decide_eq_true hi, Bool.true_and]

/-- Settles O44: the register takes the masked word, and the read gives the bits just stored. -/
theorem operandWriteReadsBackMasked : Obligations.OperandWriteReadsBackMasked := by
  intro s r j d hwf hj hr
  have hw : s.cfg.w ≤ 1024 := w_le_of_wf hwf
  have h32 : j < 32 := hj.trans_le (nw_le_of_wf hwf)
  obtain ⟨v, hv⟩ : ∃ v, v = operandWithWord s.cfg (s.regs.get r) j d := ⟨_, rfl⟩
  have hlt : v.toNat < 2 ^ s.cfg.w := by rw [hv]; exact lowBits_toNat_lt s.cfg.w _
  have hbits : ∀ i, i < 32 → v.getLsbD (32 * j + i) = (decide (32 * j + i < s.cfg.w) && d.getLsbD i) :=
    fun i hi => by rw [hv, getLsbD_operandWithWord_same s.cfg _ d h32 hi]
  refine ⟨v, _, operandWord s.cfg v j, ?_, rfl, ?_, ?_, hlt, hbits, ?_⟩
  · rw [busWrite_word s r h32, State.writeLoc, if_pos ⟨hr, hj⟩, hv]
    rfl
  · rw [busRead_word _ r h32, RegFile.get_set, if_pos rfl]
  · intro i hi
    rw [getLsbD_operandWord hlt hj hi, hbits i hi]
  · intro i hi hij
    rw [hv, getLsbD_operandWithWord_other hw _ d hi hij]

end Sys2Proof.Proofs
end

