-- ==== Sys2Proof/Proofs/ControlRegisters.lean ====
section
/-! PROOFS. The control registers off CTRL on the bus: the fields of ID, CFG, STATUS, INTEN and PTFLAGS, and what a full
write of each changes (10_state R27 to R41). An access at a fixed offset is that location's read or write by evaluation
of the map; what a proof adds is where the fields of the word stand. -/

namespace Sys2Proof.Proofs

open Sys2Proof.Machine Sys2Proof.Laws Sys2Proof.Expect

/-! ## ID and CFG -/

/-- CFG holds W in bits 15:0 (10_state R28). -/
theorem cfgWord_w (c : Config) : (cfgWord c).extractLsb' 0 16 = BitVec.ofNat 16 c.w := BitVec.extractLsb'_append_eq_right

/-- CFG from bit 16 up is the word (0, NW) above W. -/
theorem cfgWord_above_w (c : Config) (start len : Nat) :
    (cfgWord c).extractLsb' (16 + start) len = (0#8 ++ BitVec.ofNat 8 c.nw).extractLsb' start len := by
  have h := BitVec.extractLsb'_append_eq_of_le (xhi := 0#8 ++ BitVec.ofNat 8 c.nw) (xlo := BitVec.ofNat 16 c.w)
    (len := len) (Nat.le_add_right 16 start)
  rwa [Nat.add_sub_cancel_left] at h

/-- CFG holds NW in bits 23:16 (10_state R28). -/
theorem cfgWord_nw (c : Config) : (cfgWord c).extractLsb' 16 8 = BitVec.ofNat 8 c.nw :=
  (cfgWord_above_w c 0 8).trans BitVec.extractLsb'_append_eq_right

/-- CFG holds 0 in bits 31:24 (10_state R28). -/
theorem cfgWord_top (c : Config) : (cfgWord c).extractLsb' 24 8 = 0#8 :=
  (cfgWord_above_w c 8 8).trans BitVec.extractLsb'_append_eq_left

/-- Settles O46: both are constants of the map, and legal parameters fit their fields. -/
theorem idAndCfgAreConstants : Obligations.IdAndCfgAreConstants := by
  intro s d hwf
  have hw := w_le_of_wf hwf
  have hnw := nw_le_of_wf hwf
  refine ⟨rfl, ⟨cfgWord s.cfg, rfl, ?_, ?_, cfgWord_top s.cfg⟩, busWrite_ignored (off := 0x000) rfl .id s d,
    busWrite_ignored (off := 0x004) rfl .cfg s d⟩
  · rw [cfgWord_w, BitVec.toNat_ofNat, Nat.mod_eq_of_lt (by omega)]
  · rw [cfgWord_nw, BitVec.toNat_ofNat, Nat.mod_eq_of_lt (by omega), Config.nw]

/-! ## PTFLAGS -/

/-- The fields of a PTFLAGS read, in their places, and 0 elsewhere (10_state R31). -/
theorem ptflagsWord_fields (s : State) :
    (ptflagsWord s).getLsbD 0 = s.inf1 ∧ (ptflagsWord s).getLsbD 1 = s.inf2 ∧ (ptflagsWord s).getLsbD 2 = s.kneg ∧
      (ptflagsWord s).getLsbD 8 = s.rInf ∧ ptflagsWord s &&& 0xFFFFFEF8 = 0 := by
  unfold ptflagsWord
  generalize s.inf1 = inf1, s.inf2 = inf2, s.kneg = kneg, s.rInf = rInf
  revert inf1 inf2 kneg rInf
  decide

/-- Settles O48: the write is the map's, and the read's fields stand in their places. -/
theorem ptflagsWriteAndRead : Obligations.PtflagsWriteAndRead :=
  fun s _ => ⟨rfl, ptflagsWord s, rfl, ptflagsWord_fields s⟩

/-! ## STATUS -/

/-- The fields of a STATUS read, in their places, and 0 in the reserved bits (10_state R33, R39). -/
theorem statusWord_fields (s : State) :
    (statusWord s).getLsbD 0 = s.busy ∧ (statusWord s).getLsbD 1 = s.done ∧ (statusWord s).getLsbD 2 = s.rej ∧
      (statusWord s).getLsbD 3 = s.fatal ∧ (statusWord s).getLsbD 4 = s.oncurve ∧
      (statusWord s).extractLsb' 8 4 = s.err.code ∧ statusWord s &&& 0xFFFFF0E0 = 0 := by
  unfold statusWord
  generalize s.busy = busy, s.done = done, s.rej = rej, s.fatal = fatal, s.oncurve = oncurve
  revert busy done rej fatal oncurve
  cases s.err <;> decide

/-- The codes are the numbers of 60_exceptions R150, at most 5. -/
theorem code_eq_errNumber (e : ErrCode) : e.code = errNumber e ∧ e.code.toNat ≤ 5 := by
  cases e <;> decide

/-- Settles O49: the read's fields stand in their places. -/
theorem statusReadsItsFields : Obligations.StatusReadsItsFields := by
  intro s
  obtain ⟨hbusy, hdone, hrej, hfatal, honcurve, herr, hzero⟩ := statusWord_fields s
  obtain ⟨hcode, hle⟩ := code_eq_errNumber s.err
  exact ⟨statusWord s, rfl, hbusy, hdone, hrej, hfatal, honcurve, herr.trans hcode, hzero, herr ▸ hle⟩

/-- A write-1-to-clear bit (10_state R33). -/
theorem and_not_eq_ite (old bit : Bool) : (old && !bit) = if bit then false else old := by
  cases bit <;> simp

/-- A full write of STATUS is its write-1-to-clear (10_state R33, 20_memory R65). -/
theorem busWrite_status (s : State) (d : Word) :
    s.busWrite 0x00C d 0b1111 = .next ((s.writeStatus d).respond (.write false)) := rfl

/-- Settles O50: the write clears the two bits where it has a 1, and irq follows DONE. -/
theorem statusWriteOneToClear : Obligations.StatusWriteOneToClear := by
  intro s d
  refine ⟨_, busWrite_status s d, ?_, fun hbit => ?_, rfl, rfl, rfl⟩
  · rw [← and_not_eq_ite, ← and_not_eq_ite]
    rfl
  · have hdone : (s.writeStatus d).done = false := by
      rw [State.writeStatus_done, hbit, Bool.not_true, Bool.and_false]
    rw [State.irq, State.respond_done, hdone, Bool.false_and]

/-! ## INTEN and irq -/

/-- A read of INTEN is DONE_IE in bit 0 (10_state R40). -/
theorem intenWord_eq_ite (s : State) : intenWord s = if s.doneIe then 1 else 0 := by
  unfold intenWord
  cases s.doneIe <;> rfl

/-- irq is the conjunction of DONE and DONE_IE (10_state R41). -/
theorem irq_iff (s : State) : s.irq = true ↔ s.done = true ∧ s.doneIe = true := Bool.and_eq_true_iff

/-- Settles O51: the write is the map's, the read is DONE_IE in bit 0, and both of irq's inputs are 0 at reset. -/
theorem irqIsDoneAndEnabled : Obligations.IrqIsDoneAndEnabled :=
  fun s _ => ⟨rfl, congrArg (·, false) (intenWord_eq_ite s), irq_iff s, rfl, rfl⟩

end Sys2Proof.Proofs
end

