-- ==== Sys2Proof/Proofs/HostSteps.lean ====
section
/-! PROOFS. The host's side of a step: whose turn it is, what one host action does to the parameters, rst_n, the inbox and
the responses, and so that a step is one event and a host within its contract never stops the machine (20_memory R60 to R73,
70_reset_and_hazards R170). -/

namespace Sys2Proof.Proofs

open Sys2Proof.Machine Sys2Proof.Laws Sys2Proof.Expect

/-! ## Whose turn it is -/

/-- With rst_n deasserted the completion event is due, or the host's turn comes (log 4). -/
theorem due_or_hostNext {s : State} (hr : s.rstN = true) :
    (∃ r, s.eng = .busy r ∧ r.latLeft = 0) ∨ hostNext s := by
  by_cases hdue : ∃ r, s.eng = .busy r ∧ r.latLeft = 0
  · exact .inl hdue
  · exact .inr ⟨hr, fun r he hl => hdue ⟨r, he, hl⟩⟩

/-- A due completion event is the whole step (20_memory R70). -/
theorem step_of_due {s : State} {r : Running} (hr : s.rstN = true) (he : s.eng = .busy r) (hl : r.latLeft = 0) :
    step s = .next s.engineComplete := by
  rw [step, if_pos hr, State.running, he]
  exact if_pos hl

/-- When the host's turn comes, the step is an engine tick and that turn; an idle engine's tick moves nothing. -/
theorem step_of_hostNext {s : State} (h : hostNext s) : step s = s.tick.hostTurn := by
  obtain ⟨hr, hnot⟩ := h
  rw [step, if_pos hr]
  cases he : s.eng with
  | idle => rw [State.running, State.tick, he]
  | busy r =>
    rw [State.running, he]
    exact if_neg (hnot r he)

/-- When the host's turn comes, the step performs its oldest pending action at the state after the tick. -/
theorem step_of_action {s : State} {item : HostItem} {rest : List HostItem} (h : hostNext s)
    (hin : s.inbox = item :: rest) : step s = State.perform { s.tick with inbox := rest } item := by
  rw [step_of_hostNext h, State.hostTurn, State.tick_inbox, hin]

/-- While rst_n is asserted the step is a cycle of reset (70_reset_and_hazards R170). -/
theorem step_of_reset {s : State} (hr : s.rstN = false) : step s = s.heldInReset :=
  if_neg (ne_true_of_eq_false hr)

/-! ## Transactions and the window -/

/-- The window holds the addresses BASE to BASE + 0xFFF and no others (20_memory R60). -/
theorem windowOffset_eq_none {c : Config} {addr : Nat} (h : addr < c.base ∨ c.base + 0xFFF < addr) :
    windowOffset c addr = none :=
  if_neg (by omega)

/-- An address of the window has an offset (20_memory R60). -/
theorem windowOffset_of_inWindow {c : Config} {addr : Nat} (h : inWindow c addr = true) :
    ∃ off, windowOffset c addr = some off :=
  ⟨_, if_pos (by simpa [inWindow] using h)⟩

/-- A read at an address of the window is `BusRead` at its offset (20_memory R62). -/
theorem perform_read {s : State} {addr : Nat} {off : Offset} (h : windowOffset s.cfg addr = some off) :
    s.perform (.read addr) = .next (s.respond (.read (s.busRead off).1 (s.busRead off).2)) := by
  rw [State.perform, h]

/-- A write at an address of the window is `BusWrite` at its offset (20_memory R65). -/
theorem perform_write {s : State} {addr : Nat} {off : Offset} {d : Word} {strb : BitVec 4}
    (h : windowOffset s.cfg addr = some off) : s.perform (.write addr d strb) = s.busWrite off d strb := by
  rw [State.perform, h]

/-- A read at any other address stops (log 6). -/
theorem perform_read_outside {s : State} {addr : Nat} (h : windowOffset s.cfg addr = none) :
    s.perform (.read addr) = .fault (.outsideWindow addr) := by
  rw [State.perform, h]

/-- A write at any other address stops (log 6). -/
theorem perform_write_outside {s : State} {addr : Nat} {d : Word} {strb : BitVec 4}
    (h : windowOffset s.cfg addr = none) : s.perform (.write addr d strb) = .fault (.outsideWindow addr) := by
  rw [State.perform, h]

/-- Settles O59: no offset of the window belongs to the address, and the tick moves no parameter. -/
theorem transactionOutsideTheWindowFaults : Obligations.TransactionOutsideTheWindowFaults := by
  intro s addr d strb rest hnext hout
  have hnone : windowOffset s.tick.cfg addr = none := by rw [State.tick_cfg]; exact windowOffset_eq_none hout
  exact ⟨fun hin => (step_of_action hnext hin).trans (perform_read_outside hnone),
    fun hin => (step_of_action hnext hin).trans (perform_write_outside hnone)⟩

/-- Settles O42: the address has the offset back, and what the read answers is the same before and after the tick. -/
theorem readsChangeNothing : Obligations.ReadsChangeNothing := by
  intro s off rest hnext hin
  have hoff : windowOffset s.tick.cfg (s.cfg.base + off.toNat) = some off := by
    rw [State.tick_cfg, windowOffset_base s.cfg off.toNat off.isLt, BitVec.ofNat_toNat, BitVec.setWidth_eq]
  rw [(step_of_action hnext hin).trans (perform_read hoff), busRead_tick, State.respond, State.tick_resp]

/-! ## The host's side of an instruction and of a bus write -/

/-- The parameters, rst_n and the host's side are the same in `t` as in `s`. -/
structure KeepsHost (s t : State) : Prop where
  cfg : t.cfg = s.cfg
  rstN : t.rstN = s.rstN
  inbox : t.inbox = s.inbox
  resp : t.resp = s.resp

/-- What keeps the operand side keeps the host's side with it. -/
theorem KeepsOperands.keepsHost {s t : State} (h : KeepsOperands s t) : KeepsHost s t :=
  ⟨h.cfg, h.rstN, h.inbox, h.resp⟩

/-- An instruction neither takes a host action nor answers one: that is the transaction's part. -/
theorem exec_keepsHost {s t : State} {i : Instr} (h : exec i s = .next t) : KeepsHost s t := by
  obtain ⟨op, rfl⟩ | rfl | ⟨op, rfl⟩ := exec_cases h
  · exact (request_keepsOperands s op).keepsHost
  · exact ⟨rfl, rfl, rfl, rfl⟩
  · exact ⟨rfl, rfl, rfl, rfl⟩

/-- A bus write answers one response, and changes nothing else of the host's side (20_memory R61, R63 to R65). -/
theorem busWrite_answers (s : State) (off : Offset) (d : Word) (strb : BitVec 4) :
    ∃ u err, KeepsHost s u ∧ s.busWrite off d strb = .next (u.respond (.write err)) := by
  obtain ⟨-, h⟩ | ⟨-, u, hu, h⟩ | ⟨-, h⟩ := busWrite_cases s off d strb
  · exact ⟨s, true, ⟨rfl, rfl, rfl, rfl⟩, h⟩
  · exact ⟨u, false, exec_keepsHost hu, h⟩
  · exact ⟨_, false, ⟨by simp, by simp, by simp, by simp⟩, h⟩

/-- Settles O41: the alignment and strobe checks come first, and a write that passes them answers err = 0 whether it runs
an instruction or not. -/
theorem busErrorsChangeNothing : Obligations.BusErrorsChangeNothing := by
  intro s off d strb
  refine ⟨fun hmis => if_neg (mt (aligned_iff off).1 hmis), fun hal => ?_, fun hbad => if_neg ?_, fun hal hstrb => ?_⟩
  · rw [State.busRead, if_pos ((aligned_iff off).2 hal)]
  · rintro ⟨ha, hstrb⟩
    exact hbad.elim (· ((aligned_iff off).1 ha)) (· hstrb)
  · obtain ⟨hbad, -⟩ | ⟨-, t, ht, h⟩ | ⟨-, h⟩ := busWrite_cases s off d strb
    · exact absurd hbad (by simp [(aligned_iff off).2 hal, hstrb])
    · exact ⟨t, by rw [h, State.respond, (exec_keepsHost ht).resp]⟩
    · exact ⟨_, by rw [h, State.respond, State.writeLoc_resp]⟩

/-- Settles O6: the address is CTRL's, its bytes decode to one instruction only, and that instruction leaves the responses
for the transaction to add its own. -/
theorem stepRunsTheDecodedInstruction : Obligations.StepRunsTheDecodedInstruction := by
  intro s d rest i hnext hin hdec
  obtain rfl : decodeWord d = i := by
    have hd := (decode_wordBytes d []).symm.trans hdec
    cases hd
    rfl
  obtain ⟨t, ht⟩ := exec_next (decodeWord d) { s.tick with inbox := rest }
  have hoff : windowOffset s.tick.cfg (s.cfg.base + 0x008) = some 0x008 := by
    rw [State.tick_cfg]
    exact windowOffset_base s.cfg 0x008 (by decide)
  refine ⟨t, ht, ?_⟩
  rw [(step_of_action hnext hin).trans (perform_write hoff), busWrite_ctrl, ht]
  rfl

/-! ## The host's side of an action -/

/-- The level of rst_n after a host action: no transaction moves it (70_reset_and_hazards R170). -/
def levelAfter (level : Bool) : HostItem → Bool
  | .rst l => l
  | .read _ => level
  | .write _ _ _ => level
  | .wait => level

/-- What the action `item` does to the host's side: it is taken, or stays pending and leaves rst_n alone, and at most one
response is added. -/
structure TakesAction (item : HostItem) (s t : State) : Prop where
  cfg : t.cfg = s.cfg
  turn : (t.inbox = s.inbox ∧ t.rstN = levelAfter s.rstN item) ∨ (t.inbox = item :: s.inbox ∧ t.rstN = s.rstN)
  resp : t.resp = s.resp ∨ ∃ r, t.resp = r :: s.resp

/-- A transaction that keeps the host's side and is then answered takes its action. -/
theorem takesAction_respond {s u : State} {item : HostItem} (h : KeepsHost s u)
    (hlevel : levelAfter s.rstN item = s.rstN) (r : BusResp) : TakesAction item s (u.respond r) :=
  ⟨h.cfg, .inl ⟨h.inbox, h.rstN.trans hlevel.symm⟩, .inr ⟨r, congrArg (r :: ·) h.resp⟩⟩

/-- Every host action, with rst_n deasserted, does this to the host's side. -/
theorem perform_takesAction {s t : State} {item : HostItem} (hr : s.rstN = true) (h : s.perform item = .next t) :
    TakesAction item s t := by
  have hself : KeepsHost s s := ⟨rfl, rfl, rfl, rfl⟩
  cases item with
  | read addr =>
    cases hoff : windowOffset s.cfg addr with
    | none => rw [perform_read_outside hoff] at h; cases h
    | some off =>
      rw [perform_read hoff] at h
      cases h
      exact takesAction_respond hself rfl _
  | write addr d strb =>
    cases hoff : windowOffset s.cfg addr with
    | none => rw [perform_write_outside hoff] at h; cases h
    | some off =>
      obtain ⟨u, err, hu, hw⟩ := busWrite_answers s off d strb
      rw [perform_write hoff, hw] at h
      cases h
      exact takesAction_respond hu rfl _
  | wait =>
    cases h
    split
    · exact takesAction_respond hself rfl _
    · exact ⟨rfl, .inr ⟨rfl, rfl⟩, .inr ⟨_, rfl⟩⟩
  | rst level =>
    cases level <;> cases h
    · exact ⟨rfl, .inl ⟨rfl, rfl⟩, .inl rfl⟩
    · exact ⟨rfl, .inl ⟨rfl, hr⟩, .inl rfl⟩

/-! ## One event per step -/

/-- A completion event leaves the engine idle (40_command_engine R101). -/
theorem engineComplete_busy_false (s : State) : s.engineComplete.busy = false := by
  cases he : s.eng with
  | idle => rw [State.engineComplete, he, State.busy, he]; rfl
  | busy r => obtain ⟨res, -, h⟩ | ⟨e, -, h⟩ := engineComplete_busy he <;> rw [h] <;> rfl

/-- Settles O8: of the five forms of a step only the host's turn and a change of rst_n take an action, and only the former
answers. -/
theorem oneEventPerStep : Obligations.OneEventPerStep := by
  intro s t hstep
  refine ⟨?_, fun r hr he hl => ?_⟩
  · obtain ⟨-, -, rfl⟩ | ⟨-, -, -, rfl⟩ | ⟨hr, -, item, rest, hin, hp⟩ | ⟨-, -, rfl⟩ | ⟨-, level, rest, hin, rfl⟩ :=
      step_cases hstep
    · have hkeep := engineComplete_keepsOperands s
      exact ⟨.inl hkeep.inbox, .inl hkeep.resp⟩
    · exact ⟨.inl s.tick_inbox, .inl s.tick_resp⟩
    · obtain ⟨-, hturn, hresp⟩ := perform_takesAction (by simpa using hr) hp
      refine ⟨?_, by simpa using hresp⟩
      obtain ⟨htaken, -⟩ | ⟨hpending, -⟩ := hturn
      · exact .inr ⟨item, hin.trans (congrArg (item :: ·) htaken.symm)⟩
      · exact .inl (hpending.trans hin.symm)
    · exact ⟨.inl rfl, .inl rfl⟩
    · exact ⟨.inr ⟨_, hin⟩, .inl rfl⟩
  · rw [step_of_due hr he hl] at hstep
    cases hstep
    have hkeep := engineComplete_keepsOperands s
    exact ⟨hkeep.inbox, hkeep.resp, engineComplete_busy_false s⟩

/-! ## The host's contract -/

/-- Once an action is taken, the actions after it keep the contract. -/
theorem contract_tail {c : Config} {level : Bool} {item : HostItem} {rest : List HostItem}
    (h : hostKeepsContract c level (item :: rest) = true) : hostKeepsContract c (levelAfter level item) rest = true := by
  cases item with
  | rst l => exact h
  | wait => exact (Bool.and_eq_true_iff.mp h).2
  | read addr => exact (Bool.and_eq_true_iff.mp h).2
  | write addr d strb => exact (Bool.and_eq_true_iff.mp h).2

/-- Within the contract an action while rst_n is asserted can only move rst_n (70_reset_and_hazards R170). -/
theorem rst_of_contract {c : Config} {item : HostItem} {rest : List HostItem}
    (h : hostKeepsContract c false (item :: rest) = true) : ∃ level, item = .rst level := by
  cases item with
  | rst level => exact ⟨level, rfl⟩
  | _ => cases h

/-- A read within the contract is at an address of the window (20_memory R60), and the contract asks the same of a write. -/
theorem windowOffset_of_contract {c : Config} {level : Bool} {addr : Nat} {rest : List HostItem}
    (h : hostKeepsContract c level (.read addr :: rest) = true) : ∃ off, windowOffset c addr = some off := by
  obtain ⟨⟨-, hwin⟩, -⟩ : (level = true ∧ inWindow c addr = true) ∧ hostKeepsContract c level rest = true := by
    simpa [hostKeepsContract] using h
  exact windowOffset_of_inWindow hwin

/-- Within the contract a host action, with rst_n deasserted, does not stop the machine (log 6). -/
theorem perform_next_of_contract {s : State} {item : HostItem} {rest : List HostItem}
    (h : hostKeepsContract s.cfg s.rstN (item :: rest) = true) : ∃ t, s.perform item = .next t := by
  cases item with
  | rst level => exact ⟨_, rfl⟩
  | wait => exact ⟨_, rfl⟩
  | read addr =>
    obtain ⟨off, hoff⟩ := windowOffset_of_contract h
    exact ⟨_, perform_read hoff⟩
  | write addr d strb =>
    obtain ⟨off, hoff⟩ := windowOffset_of_contract h
    obtain ⟨u, err, -, hw⟩ := busWrite_answers s off d strb
    exact ⟨_, (perform_write hoff).trans hw⟩

/-- Within the contract no step stops (logs 6, 7). -/
theorem stepsOn_of_contract {s : State} (h : s.contract = true) : s.stepsOn := by
  cases hr : s.rstN with
  | true =>
    obtain ⟨r, he, hl⟩ | hnext := due_or_hostNext hr
    · exact ⟨_, step_of_due hr he hl⟩
    · cases hin : s.inbox with
      | nil => exact ⟨s.tick, by rw [step_of_hostNext hnext, State.hostTurn, State.tick_inbox, hin]⟩
      | cons item rest =>
        rw [State.stepsOn, step_of_action hnext hin]
        refine perform_next_of_contract (rest := rest) ?_
        simpa [State.contract, hin] using h
  | false =>
    rw [State.stepsOn, step_of_reset hr, State.heldInReset]
    cases hin : s.inbox with
    | nil => exact ⟨_, rfl⟩
    | cons item rest =>
      rw [State.contract, hr, hin] at h
      obtain ⟨level, rfl⟩ := rst_of_contract h
      exact ⟨_, rfl⟩

/-- The contract is about the parameters, rst_n and the pending actions alone. -/
theorem contract_congr {s t : State} (hcfg : t.cfg = s.cfg) (hrst : t.rstN = s.rstN) (hin : t.inbox = s.inbox) :
    t.contract = s.contract := by
  rw [State.contract, hcfg, hrst, hin, State.contract]

/-- An action that is taken, or stays pending, leaves a host within its contract. -/
theorem contract_of_takesAction {s t : State} {item : HostItem} (h : TakesAction item s t)
    (hs : hostKeepsContract s.cfg s.rstN (item :: s.inbox) = true) : t.contract = true := by
  obtain ⟨hcfg, ⟨hin, hlevel⟩ | ⟨hin, hlevel⟩, -⟩ := h <;> rw [State.contract, hcfg, hlevel, hin]
  · exact contract_tail hs
  · exact hs

/-- Every step leaves a host within its contract. -/
theorem step_keepsContract {s t : State} (hs : s.contract = true) (hstep : step s = .next t) : t.contract = true := by
  obtain ⟨-, -, rfl⟩ | ⟨-, -, -, rfl⟩ | ⟨hr, -, item, rest, hin, hp⟩ | ⟨-, -, rfl⟩ | ⟨-, level, rest, hin, rfl⟩ :=
    step_cases hstep
  · have hkeep := engineComplete_keepsOperands s
    exact (contract_congr hkeep.cfg hkeep.rstN hkeep.inbox).trans hs
  · exact (contract_congr s.tick_cfg s.tick_rstN s.tick_inbox).trans hs
  · refine contract_of_takesAction (perform_takesAction (by simpa using hr) hp) ?_
    simpa [State.contract, hin] using hs
  · exact hs
  · rw [State.contract, hin] at hs
    exact contract_tail hs

/-- Settles O58: no step stops within the contract, and every step keeps it. -/
theorem hostContractKeepsTheMachineGoing : Obligations.HostContractKeepsTheMachineGoing := by
  intro s hs
  obtain ⟨t, ht⟩ := stepsOn_of_contract hs
  exact ⟨t, ht, step_keepsContract hs ht⟩

end Sys2Proof.Proofs
end

