-- ==== Sys2Proof/Proofs/Encoding.lean ====
section
/-! PROOFS. The decoder said in one equation over the fields of a CTRL word that it compares, SRST, START and OP, and what
follows of it: the rows of the opcode table, the ignored bits, and that decode inverts encode (30_encoding R80 to R91). -/

namespace Sys2Proof.Proofs

open Sys2Proof.Machine Sys2Proof.Laws Sys2Proof.Expect

/-! ## The ignored bits -/

/-- A row that compares none of the ignored bits does not tell apart words that agree on the others (30_encoding R84). -/
theorem hits_congr {d d' : Word} (h : d &&& 0x000000F3 = d' &&& 0x000000F3) {row : CtrlRow}
    (hmask : 0x000000F3 &&& row.mask = row.mask) : row.hits d = row.hits d' := by
  have hand : d &&& row.mask = d' &&& row.mask := by
    rw [← hmask, ← BitVec.and_assoc, h, BitVec.and_assoc]
  rw [CtrlRow.hits, hand, CtrlRow.hits]

/-- The ignored bits are no part of OP (30_encoding R80). -/
theorem opField_and_compared (d : Word) : opField (d &&& 0x000000F3) = opField d :=
  BitVec.extractLsb'_and.trans (BitVec.and_allOnes (x := opField d))

/-- The ignored bits of a CTRL write do not change what it decodes to (30_encoding R84). -/
theorem decodeWord_congr {d d' : Word} (h : d &&& 0x000000F3 = d' &&& 0x000000F3) : decodeWord d = decodeWord d' := by
  have hop : opField d = opField d' := by rw [← opField_and_compared d, h, opField_and_compared]
  unfold decodeWord
  rw [hop, hits_congr h (row := rowSrst) rfl, hits_congr h (row := rowAdd) rfl, hits_congr h (row := rowDbl) rfl,
    hits_congr h (row := rowNeg) rfl, hits_congr h (row := rowInv) rfl, hits_congr h (row := rowSmul) rfl,
    hits_congr h (row := rowChk) rfl, hits_congr h (row := rowBadop) rfl]

/-- The bits of a CTRL read that R84 says are 0. -/
theorem ctrlWord_ignored (s : State) : ctrlWord s &&& 0xFFFFFF0C = 0 := by
  unfold ctrlWord
  generalize s.ctrlOp = op
  revert op
  decide

/-- Settles O1: no row compares an ignored bit, and a CTRL read is OP alone. -/
theorem reservedCtrlBitsIgnored : Obligations.ReservedCtrlBitsIgnored :=
  ⟨fun _ _ => decodeWord_congr, ctrlWord_ignored, by decide⟩

/-! ## The decoder as one equation -/

/-- The CTRL word with these fields and the ignored bits 0 (30_encoding R80). -/
def ctrlFields (op : BitVec 4) (srst start : Bool) : Word :=
  0#24 ++ op ++ 0#2 ++ BitVec.ofBool srst ++ BitVec.ofBool start

/-- A word less its ignored bits is the word of its fields. -/
theorem and_compared_eq_ctrlFields (d : Word) :
    d &&& 0x000000F3 = ctrlFields (opField d) (d.getLsbD 1) (d.getLsbD 0) := by
  unfold ctrlFields opField
  ext i hi
  simp only [← BitVec.getLsbD_eq_getElem, BitVec.getLsbD_append, BitVec.getLsbD_and]
  interval_cases i <;> simp

/-- The instruction that requests the command of the opcode `op` (30_encoding R82, R83). -/
def requestInstr (op : BitVec 4) : Instr :=
  match Command.ofOp op with
  | some .add => .add
  | some .dbl => .dbl
  | some .neg => .neg
  | some .inv => .inv
  | some .smul => .smul
  | some .chk => .chk
  | none => .badop op

/-- It requests that opcode, and only a reserved one as BADOP. -/
theorem requestInstr_spec : ∀ op, requestOp (requestInstr op) = some op ∧ (requestInstr op).wf = true := by
  decide

/-- The decoder over the fields it compares. -/
theorem decodeWord_ctrlFields : ∀ op srst start, decodeWord (ctrlFields op srst start) =
    if srst then .srst else if start then requestInstr op else .setop op := by
  decide

/-- The decode of a CTRL write by its two strobes (30_encoding R81). -/
theorem decodeWord_eq (d : Word) : decodeWord d =
    if d.getLsbD 1 then .srst else if d.getLsbD 0 then requestInstr (opField d) else .setop (opField d) := by
  have hself : d &&& 0x000000F3 = d &&& 0x000000F3 &&& 0x000000F3 := by rw [BitVec.and_assoc]; rfl
  rw [decodeWord_congr hself, and_compared_eq_ctrlFields, decodeWord_ctrlFields]

/-- Whatever a word decodes to is well-formed (30_encoding R83, R91). -/
theorem decodeWord_wf (d : Word) : (decodeWord d).wf = true := by
  rw [decodeWord_eq]
  split
  next => rfl
  next =>
    split
    next => exact (requestInstr_spec _).2
    next => rfl

/-- The canonical word of a well-formed instruction decodes to it (30_encoding R82). -/
theorem decodeWord_encodeWord {i : Instr} (h : i.wf = true) : decodeWord (encodeWord i) = i := by
  cases i with
  | add | dbl | neg | inv | smul | chk | srst => rfl
  | badop op =>
    have reserved : ∀ op, reservedOp op = true → decodeWord (encodeWord (.badop op)) = .badop op := by decide
    exact reserved op h
  | setop op =>
    revert op
    decide

/-- Settles O2: the byte lanes of the canonical word give the word back, and the word its instruction. -/
theorem decodeInvertsEncode : Obligations.DecodeInvertsEncode := by
  refine ⟨fun i rest hwf => ?_, decodeWord_wf⟩
  rw [encode, decode_wordBytes, decodeWord_encodeWord hwf]

/-- Settles O5: each of these words is the canonical one of a well-formed instruction. -/
theorem writtenOutWordsDecode : Obligations.WrittenOutWordsDecode :=
  ⟨decodeWord_encodeWord (i := .add) rfl, decodeWord_encodeWord (i := .dbl) rfl, decodeWord_encodeWord (i := .neg) rfl,
    decodeWord_encodeWord (i := .inv) rfl, decodeWord_encodeWord (i := .smul) rfl, decodeWord_encodeWord (i := .chk) rfl,
    decodeWord_encodeWord (i := .badop 9) rfl, decodeWord_encodeWord (i := .srst) rfl,
    decodeWord_encodeWord (i := .setop 5) rfl⟩

/-! ## The rows of the opcode table -/

/-- The first entry that satisfies `p` is the head if it does, else the first of the tail. -/
theorem map_find?_cons_eq {α β : Type} {p : α → Bool} {f : α → β} {a : α} {as : List α} {b : β}
    (h : p a = false → (as.find? p).map f = some b) : ((a :: as).find? p).map f = some (if p a then f a else b) := by
  rw [List.find?_cons]
  cases hp : p a with
  | true => rfl
  | false => exact h hp

/-- Settles O4: the decoder tries the rows in this order, and the last matches whatever no row before it does. -/
theorem firstMatchingRowDecides : Obligations.FirstMatchingRowDecides := by
  intro d
  rw [rows, decodeWord]
  refine map_find?_cons_eq fun hsrst => ?_
  iterate 6
    refine map_find?_cons_eq fun _ => ?_
  refine map_find?_cons_eq fun hbadop => ?_
  rw [List.find?_cons_of_pos]
  · rfl
  · exact setop_row_covers_rest d hsrst hbadop

/-! ## Requests and SETOP -/

/-- Settles O10: SETOP's meaning is that store. -/
theorem setopChangesOnlyOp : Obligations.SetopChangesOnlyOp := fun _ _ => rfl

/-- Settles O3: the three cases are those of the decoder's equation. -/
theorem ctrlWriteDecodesByStrobes : Obligations.CtrlWriteDecodesByStrobes := by
  intro d s
  refine ⟨decodeWord_srst, fun hsrst hstart => ?_, fun hsrst hstart => ?_⟩
  · have hdec : decodeWord d = requestInstr (opField d) := by rw [decodeWord_eq, hsrst, hstart]; rfl
    have hreq : requestOp (decodeWord d) = some (opField d) := by rw [hdec]; exact (requestInstr_spec _).1
    exact ⟨hreq, exec_of_requestOp hreq s⟩
  · have hdec : decodeWord d = .setop (opField d) := by rw [decodeWord_eq, hsrst, hstart]; rfl
    exact ⟨hdec, by rw [hdec]; exact setopChangesOnlyOp _ s⟩

end Sys2Proof.Proofs
end

