-- ==== Sys2Proof/Proofs/HostSequences.lean ====
section
/-! PROOFS. What the host issues by 30_encoding, on the machine: the CTRL word put as the next action, `wait`, and the `ld`
sequence, whose NW writes with the engine idle are NW steps (30_encoding R80, R93, R96). -/

namespace Sys2Proof.Proofs

open Sys2Proof.Machine Sys2Proof.Laws Sys2Proof.Expect

/-! ## The CTRL word and `wait` -/

/-- With the completion event put off, the host's turn comes next (log 3). -/
theorem hostNext_withCtrlWrite (s : State) (d : Word) : hostNext (s.withCtrlWrite d) := by
  refine ⟨rfl, fun r he => ?_⟩
  rw [State.withCtrlWrite_eng] at he
  cases hs : s.eng with
  | idle => rw [hs] at he; cases he
  | busy r' =>
    rw [hs] at he
    cases he
    exact Nat.succ_ne_zero r'.latLeft

/-- When the host's turn comes with `wr OFF, DATA` pending, the step is that bus write after the tick (30_encoding R92). -/
theorem step_of_hostWr {s : State} {off : Nat} {d : Word} {rest : List HostItem} (h : hostNext s) (hoff : off < 0x1000)
    (hin : s.inbox = hostWr s.cfg off d :: rest) :
    step s = State.busWrite { s.tick with inbox := rest } (BitVec.ofNat 12 off) d 0b1111 := by
  have hwindow : windowOffset s.tick.cfg (s.cfg.base + off) = some (BitVec.ofNat 12 off) := by
    rw [State.tick_cfg]
    exact windowOffset_base s.cfg off hoff
  exact (step_of_action h hin).trans (perform_write hwindow)

/-- Settles O7: the placed write is the oldest action, its offset is CTRL's, and its word is the table word. -/
theorem fetchWordRunsItsInstruction : Obligations.FetchWordRunsItsInstruction := by
  intro s nbits w i hdec
  obtain rfl : decodeWord (tableWord nbits w) = i := Option.some.inj ((decodeTableWord_eq nbits w).symm.trans hdec)
  exact (step_of_hostWr (hostNext_withCtrlWrite s _) (by decide) rfl).trans (busWrite_ctrl _ _)

/-- Settles O54: what STATUS reads and DONE are the same after the tick, and `wait` goes back into the inbox with DONE 0. -/
theorem waitReadsStatusUntilDone : Obligations.WaitReadsStatusUntilDone := by
  intro s rest hnext hin
  rw [step_of_action hnext hin, State.perform, busRead_tick, State.tick_done]
  simp only [State.respond, State.tick_resp]
  cases s.done <;> rfl

/-! ## One write of an operand word, with the engine idle -/

/-- STATUS.BUSY is 0 only while the engine is idle (10_state R34). -/
theorem eng_of_not_busy {s : State} (h : s.busy = false) : s.eng = .idle := by
  cases he : s.eng with
  | idle => rfl
  | busy r => rw [State.busy, he] at h; cases h

/-- An idle engine's tick moves nothing. -/
theorem tick_of_not_busy {s : State} (h : s.busy = false) : s.tick = s := by
  rw [State.tick, eng_of_not_busy h]

/-- With the engine idle no completion event is due. -/
theorem hostNext_of_not_busy {s : State} (hr : s.rstN = true) (h : s.busy = false) : hostNext s := by
  refine ⟨hr, fun r he => ?_⟩
  rw [eng_of_not_busy h] at he
  cases he

/-- `s` with `x` in the register `r`, these actions pending and these further responses received. -/
def stored (s : State) (r : Reg) (x : Operand) (inbox : List HostItem) (resp : List BusResp) : State :=
  { s with regs := s.regs.set r x, inbox := inbox, resp := resp ++ s.resp }

/-- Storing what the register holds changes nothing of the registers. -/
theorem stored_get (s : State) (r : Reg) : stored s r (s.regs.get r) s.inbox [] = s := by
  have hset : s.regs.set r (s.regs.get r) = s.regs := by cases r <;> rfl
  rw [stored, hset]
  rfl

/-- Of two stores to a register the later one stands, and the responses to both are received. -/
theorem stored_stored (s : State) (r : Reg) (x y : Operand) (inbox inbox' : List HostItem) (resp resp' : List BusResp) :
    stored (stored s r x inbox resp) r y inbox' resp' = stored s r y inbox' (resp' ++ resp) := by
  have hset : (s.regs.set r x).set r y = s.regs.set r y := by cases r <;> rfl
  simp only [stored, hset, List.append_assoc]

/-- The register holds what was stored. -/
theorem stored_regs_get (s : State) (r : Reg) (x : Operand) (inbox : List HostItem) (resp : List BusResp) :
    (stored s r x inbox resp).regs.get r = x :=
  (RegFile.get_set s.regs r r x).trans (if_pos rfl)

/-- `wr` to word `j` of a writable register, with the engine idle, is one step that stores the masked word. -/
theorem step_of_hostWr_word {s : State} {r : Reg} {j : Nat} {d : Word} {rest : List HostItem} (hrst : s.rstN = true)
    (hidle : s.busy = false) (hr : r.busWritable = true) (hj : j < s.cfg.nw) (h32 : j < 32)
    (hin : s.inbox = hostWr s.cfg (r.window + 4 * j) d :: rest) :
    step s = .next (stored s r (operandWithWord s.cfg (s.regs.get r) j d) rest [.write false]) := by
  have hlt : r.window + 4 * j < 0x1000 := by
    have hwindow := (window_bounds r).2
    omega
  rw [step_of_hostWr (hostNext_of_not_busy hrst hidle) hlt hin, tick_of_not_busy hidle, busWrite_word _ r h32,
    State.writeLoc, if_pos ⟨hr, hj⟩]
  rfl

/-! ## The `ld` sequence -/

/-- The write of `ld REG, VALUE` for word `j`; `hostLd` is these writes in increasing `j` (30_encoding R93). -/
def ldWrite (c : Config) (r : Reg) (v j : Nat) : HostItem :=
  hostWr c (r.window + 4 * j) (BitVec.ofNat 32 (v / 2 ^ (32 * j)))

/-- What a register that held `old` holds after word `j` of `v` has been written to it, for each `j` of `js` in turn. -/
def wordsLoaded (c : Config) (v : Nat) (old : Operand) (js : List Nat) : Operand :=
  js.foldl (fun x j => operandWithWord c x j (BitVec.ofNat 32 (v / 2 ^ (32 * j)))) old

/-- A run goes on from where its first step leads. -/
theorem run_succ_of_step {M : Host.Core} {s t : M.State} (h : M.step s = .next t) (k : Nat) :
    M.run (k + 1) s = M.run k t := by
  rw [Host.Core.run, h]

/-- Pending writes of words of a register, with the engine idle, are performed in as many steps, each storing its word. -/
theorem run_of_ldWrites {r : Reg} (hr : r.busWritable = true) (v : Nat) (rest : List HostItem) (js : List Nat) :
    ∀ s : State, s.cfg.wf = true → s.rstN = true → s.busy = false → (∀ j ∈ js, j < s.cfg.nw) →
      s.inbox = js.map (ldWrite s.cfg r v) ++ rest →
        ∃ resp', Sys2Proof.core.run js.length s =
          .next (stored s r (wordsLoaded s.cfg v (s.regs.get r) js) rest resp') := by
  induction js with
  | nil =>
    intro s _ _ _ _ hin
    have hin : s.inbox = rest := hin
    exact ⟨[], congrArg Host.Outcome.next (hin ▸ stored_get s r).symm⟩
  | cons j js ih =>
    intro s hwf hrst hidle hjs hin
    have hj : j < s.cfg.nw := hjs j List.mem_cons_self
    have hin : s.inbox = ldWrite s.cfg r v j :: (js.map (ldWrite s.cfg r v) ++ rest) := hin
    have hstep := step_of_hostWr_word hrst hidle hr hj (hj.trans_le (nw_le_of_wf hwf)) hin
    obtain ⟨resp', hrun⟩ := ih (stored s r _ (js.map (ldWrite s.cfg r v) ++ rest) [.write false]) hwf hrst hidle
      (fun j' h => hjs j' (List.mem_cons_of_mem j h)) rfl
    rw [stored_stored, stored_regs_get] at hrun
    exact ⟨_, (run_succ_of_step (M := Sys2Proof.core) hstep js.length).trans hrun⟩

/-- Loading one word more writes it over what the words below it have left. -/
theorem wordsLoaded_range_succ (c : Config) (v : Nat) (old : Operand) (k : Nat) :
    wordsLoaded c v old (List.range (k + 1)) =
      operandWithWord c (wordsLoaded c v old (List.range k)) k (BitVec.ofNat 32 (v / 2 ^ (32 * k))) := by
  rw [wordsLoaded, List.range_succ, List.foldl_concat, wordsLoaded]

/-- Bit `i` below W after the `k` lowest words of `v` have been written: that of `v` if its word is among them. -/
theorem getLsbD_wordsLoaded_range {c : Config} (hc : c.w ≤ 1024) (v : Nat) (old : Operand) {i : Nat} (hi : i < c.w)
    (k : Nat) : (wordsLoaded c v old (List.range k)).getLsbD i = if i < 32 * k then v.testBit i else old.getLsbD i := by
  induction k with
  | zero => rfl
  | succ k ih =>
    rw [wordsLoaded_range_succ, getLsbD_operandWithWord c _ k _ (by omega), decide_eq_true hi, Bool.true_and, ih]
    by_cases hword : 32 * k ≤ i ∧ i < 32 * k + 32
    · rw [if_pos hword, if_pos (by omega), BitVec.getLsbD_ofNat, decide_eq_true (by omega), Bool.true_and,
        Nat.testBit_div_two_pow, Nat.sub_add_cancel hword.1]
    · have hbelow : i < 32 * k ↔ i < 32 * (k + 1) := by omega
      simp only [if_neg hword, hbelow]

/-- A register that has taken a word holds a value below 2^W (10_state R22). -/
theorem wordsLoaded_range_lt (c : Config) (v : Nat) (old : Operand) {k : Nat} (hk : k ≠ 0) :
    (wordsLoaded c v old (List.range k)).toNat < 2 ^ c.w := by
  obtain ⟨n, rfl⟩ := Nat.exists_eq_succ_of_ne_zero hk
  rw [wordsLoaded_range_succ]
  exact lowBits_toNat_lt c.w _

/-- The NW words reach every bit below W (00_scope R5). -/
theorem w_le_nw_words (c : Config) : c.w ≤ 32 * c.nw := by
  unfold Config.nw
  omega

/-- Legal parameters have W of at least 2 (00_scope R5). -/
theorem two_le_w_of_wf {c : Config} (h : c.wf = true) : 2 ≤ c.w := by
  simp only [Config.wf, Bool.and_eq_true, decide_eq_true_eq] at h
  obtain ⟨⟨hw, -⟩, -⟩ := h
  exact hw

/-- The NW words of `v` leave the register at `v` less the bits at or above W, whatever it held (30_encoding R93). -/
theorem wordsLoaded_all {c : Config} (hc : c.wf = true) (v : Nat) (old : Operand) :
    wordsLoaded c v old (List.range c.nw) = BitVec.ofNat 1024 (v % 2 ^ c.w) := by
  have hcover := w_le_nw_words c
  have hpos := two_le_w_of_wf hc
  have hlt := wordsLoaded_range_lt c v old (k := c.nw) (by omega)
  apply BitVec.eq_of_getLsbD_eq
  intro i hi
  rw [BitVec.getLsbD_ofNat, Nat.testBit_mod_two_pow, decide_eq_true hi, Bool.true_and]
  by_cases hw : i < c.w
  · rw [getLsbD_wordsLoaded_range (w_le_of_wf hc) v old hw, if_pos (by omega), decide_eq_true hw, Bool.true_and]
  · rw [← lowBits_of_lt hlt, getLsbD_lowBits, decide_eq_false hw, Bool.and_false, Bool.false_and, Bool.false_and]

/-- Settles O53: the writes are NW steps, and the NW words cover every bit below W. -/
theorem loadSequenceStoresTheValue : Obligations.LoadSequenceStoresTheValue := by
  intro s r v rest hwf hrst hidle hr hin
  obtain ⟨resp', hrun⟩ := run_of_ldWrites hr v rest (List.range s.cfg.nw) s hwf hrst hidle
    (fun j hj => List.mem_range.1 hj) hin
  rw [List.length_range, wordsLoaded_all hwf] at hrun
  exact ⟨resp', hrun⟩

end Sys2Proof.Proofs
end

