-- ==== Sys2Proof/Proofs/CommandEngine.lean ====
section
/-! PROOFS. The command engine (40_command_engine): acceptance and rejection of a request (R99), the order of the checks and
the errors an operation can raise (R102, R159), and the completion event (R101, R103). -/

namespace Sys2Proof.Proofs

open Sys2Proof.Machine Sys2Proof.Laws Sys2Proof.Expect

/-! ## Requests -/

/-- An idle engine without FATAL accepts a request (40_command_engine R99). -/
theorem request_of_idle {s : State} (hb : s.busy = false) (hf : s.fatal = false) (op : BitVec 4) :
    s.request op = s.accept op := by
  rw [State.request, if_pos]
  simp [State.canAccept, hb, hf]

/-- A busy or fatal engine turns a request away (40_command_engine R99). -/
theorem request_of_blocked {s : State} (h : s.busy = true ∨ s.fatal = true) (op : BitVec 4) :
    s.request op = s.reject op := by
  rw [State.request, if_neg]
  obtain h | h := h <;> simp [State.canAccept, h]

/-- Settles O9: a request is accepted or turned away, with the snapshot of the registers as they stand. -/
theorem requestFollowsAcceptanceRule : Obligations.RequestFollowsAcceptanceRule := by
  intro i op s hi
  rw [exec_of_requestOp hi]
  refine ⟨fun hb hf => ?accepted, fun h => ?rejected⟩
  case accepted =>
    have hsnap : s.snapshot op = snapshotOf s op := rfl
    rw [request_of_idle hb hf]
    exact ⟨_, hsnap, rfl⟩
  case rejected => rw [request_of_blocked h]; rfl

/-! ## Completion -/

/-- A completion with an error outside FATAL: FATAL is set by ERR_FATAL alone (40_command_engine R101, 60_exceptions R155). -/
theorem complete_error {s : State} (hf : s.fatal = false) (e : ErrCode) :
    s.complete (.error e) = { s with err := e, fatal := decide (e = .fatal), done := true, eng := .idle } := by
  rw [State.complete, State.finish, State.reportError, hf, Bool.false_or]

/-- Reporting ERR_NONE where ERR is 0 already changes nothing. -/
theorem reportError_none {s : State} (he : s.err = .none) : s.reportError .none = s := by
  rw [State.reportError, decide_eq_false (nofun : ErrCode.none ≠ .fatal), Bool.or_false, ← he]

/-- A completion with a result, ERR being 0 already: the commit, DONE and the idle engine (40_command_engine R101). -/
theorem complete_ok {s : State} (he : s.err = .none) (res : Result) :
    s.complete (.ok res) = { s.commit res with done := true, eng := .idle } := by
  rw [State.complete, reportError_none ((State.commit_err s res).trans he), State.finish]

/-- An accepted request completes with `Execute` on the snapshot taken at the acceptance (40_command_engine R100, R101). -/
theorem completes_of_requestOp {i : Instr} {op : BitVec 4} {s : State} (hi : requestOp i = some op) (hb : s.busy = false)
    (hf : s.fatal = false) : completes i s ((s.accept op).complete (execute (s.snapshot op))) := by
  refine ⟨s.accept op, ?_, rfl, ?_⟩
  · rw [exec_of_requestOp hi, request_of_idle hb hf]
  · rw [State.engineComplete, State.accept_eng, ← start_outcome]

/-- An accepted request whose outcome is an error ends as `Expect.failed` says (40_command_engine R101, 10_state R50). -/
theorem completes_failed {i : Instr} {op : BitVec 4} {s : State} {e : ErrCode} (hi : requestOp i = some op)
    (hb : s.busy = false) (hf : s.fatal = false) (h : execute (s.snapshot op) = .error e) :
    completes i s (failed s op e) := by
  have hend : (s.accept op).complete (.error e) = failed s op e := by
    rw [complete_error (s := s.accept op) hf, ← eng_of_not_busy hb]
    rfl
  rw [← hend, ← h]
  exact completes_of_requestOp hi hb hf

/-- Settles O14: an accepted reserved opcode has the outcome BADOP of `Execute`, and the rejection is that of any request. -/
theorem badopEndsWithBadop : Obligations.BadopEndsWithBadop := by
  refine ⟨fun op s hop => ⟨fun hb hf => ?_, fun h => ?_⟩, rfl⟩
  · exact completes_failed rfl hb hf (execute_reserved (ofOp_reserved hop))
  · rw [exec_of_requestOp rfl, request_of_blocked h]
    rfl

/-- Under the invariant a due completion event is the whole step, and its outcome is `Execute` on the snapshot
(40_command_engine R101, 20_memory R70). -/
theorem step_of_due_execute {s : State} {r : Running} (hs : s.Inv) (hr : s.rstN = true) (he : s.eng = .busy r)
    (hl : r.latLeft = 0) : step s = .next (s.complete (execute r.snap)) := by
  rw [step_of_due hr he hl, State.engineComplete, he, ← hs.outcomeFixed r he]

/-- Settles O35: the step is the completion with the outcome of `Execute`, and a busy engine of the invariant has ERR and
FATAL 0; for each form of result the commit is then read off. -/
theorem completionIsOneEvent : Obligations.CompletionIsOneEvent := by
  intro s r hs hr he hl
  obtain ⟨-, herr, hf⟩ := hs.busyQuiet (by rw [State.busy, he]; rfl)
  rw [step_of_due_execute hs hr he hl]
  have hcommit : ∀ {res}, execute r.snap = .ok res →
      s.complete (execute r.snap) = { s.commit res with done := true, eng := .idle } :=
    fun h => by rw [h, complete_ok herr]
  refine ⟨fun e h => ?error, fun b h => ?membership, fun x h => ?inverse, fun h => ?identity, fun x y h => ?affine⟩
  case error => rw [h, complete_error hf]
  case membership => rw [hcommit h]; rfl
  case inverse => rw [hcommit h]; rfl
  case identity => rw [hcommit h]; rfl
  case affine => rw [hcommit h]; rfl

/-! ## The checks in order -/

/-- An opcode that is not reserved names a command (30_encoding R82, R83). -/
theorem ofOp_isSome : ∀ op, reservedOp op = false → (Command.ofOp op).isSome = true := by
  decide

/-- A command is named by its own opcode alone (30_encoding R82). -/
theorem ofOp_eq_some_iff (op : BitVec 4) (c : Command) : Command.ofOp op = some c ↔ op = c.op := by
  revert op
  cases c <;> decide

/-- Check 3 is that of every command but INV (40_command_engine R102). -/
theorem checksP1_iff (c : Command) : c.checksP1 = true ↔ c.op ≠ 4 := by
  cases c <;> decide

/-- Check 4 is that of ADD alone (40_command_engine R102). -/
theorem checksP2_iff (c : Command) : c.checksP2 = true ↔ c.op = 1 := by
  cases c <;> decide

section
variable {sn : Snapshot} {c : Command}

/-- Check 2: P below 2 (60_exceptions R152). -/
theorem checkOperands_param (hp : sn.p.toNat < 2) : checkOperands sn c = .param :=
  if_pos hp

/-- Check 3: P1 out of range (60_exceptions R153). -/
theorem checkOperands_range_p1 (hp : 2 ≤ sn.p.toNat) (hc : c.checksP1 = true) (h1 : sn.p1.inRange sn.p.toNat = false) :
    checkOperands sn c = .range := by
  rw [checkOperands, if_neg (by omega), if_pos (by rw [hc, h1]; rfl)]

/-- Check 4: P2 out of range, whether or not P1 is (60_exceptions R153). -/
theorem checkOperands_range_p2 (hp : 2 ≤ sn.p.toNat) (hc : c.checksP2 = true) (h2 : sn.p2.inRange sn.p.toNat = false) :
    checkOperands sn c = .range := by
  have hp2 : (c.checksP2 && !sn.p2.inRange sn.p.toNat) = true := by rw [hc, h2]; rfl
  rw [checkOperands, if_neg (by omega), if_pos hp2, ite_self]

/-- The checks pass when P and the points that the command checks are in range. -/
theorem checkOperands_none (hp : 2 ≤ sn.p.toNat) (h1 : c.checksP1 = true → sn.p1.inRange sn.p.toNat = true)
    (h2 : c.checksP2 = true → sn.p2.inRange sn.p.toNat = true) : checkOperands sn c = .none := by
  rw [checkOperands, if_neg (by omega), if_neg (by simpa using h1), if_neg (by simpa using h2)]

/-- A failed check is the outcome (40_command_engine R102). -/
theorem execute_of_failed_check {e : ErrCode} (hc : Command.ofOp sn.op = some c) (h : checkOperands sn c = e)
    (he : e ≠ .none) : execute sn = .error e := by
  rw [execute_command hc, h, if_neg he]

/-- With the checks passed the operation decides (40_command_engine R102, R104). -/
theorem execute_of_passed_checks (hc : Command.ofOp sn.op = some c) (h : checkOperands sn c = .none) :
    execute sn = runCommand sn c := by
  rw [execute_command hc, if_pos h]

end

/-- Scalar multiplication raises no error but FATAL (43_scalar_multiply R140). -/
theorem psmul_error {a p : Nat} {q : Pt} {n : Int} {e : ErrCode} (h : psmul a p q n = .error e) : e = .fatal := by
  rw [psmul_eq_loop] at h
  exact smulLoop_error h

/-- A point-valued operation ends with an error only where its operation function raises it. -/
theorem pointResult_eq_error {o : Except ErrCode Pt} {e : ErrCode} (h : pointResult o = .error e) : o = .error e := by
  cases o with
  | ok q => cases h
  | error e' => cases h; rfl

/-- The errors of the operations: NOINV from INV, FATAL from ADD, DBL and SMUL, none from NEG and CHK (60_exceptions R154,
R155). -/
theorem runCommand_error {sn : Snapshot} {c : Command} {e : ErrCode} (h : runCommand sn c = .error e) :
    (c = .inv ∧ e = .noinv) ∨ ((c = .add ∨ c = .dbl ∨ c = .smul) ∧ e = .fatal) := by
  cases c with
  | add => exact .inr ⟨.inl rfl, padd_error (pointResult_eq_error h)⟩
  | dbl => exact .inr ⟨.inr (.inl rfl), padd_error (pointResult_eq_error h)⟩
  | neg => cases h
  | inv =>
    simp only [runCommand, runInv] at h
    split at h <;> cases h
    exact .inl ⟨rfl, rfl⟩
  | smul => exact .inr ⟨.inr (.inr rfl), psmul_error (pointResult_eq_error h)⟩
  | chk => cases h

/-- Settles O22: a valid opcode names the one command with that opcode; its checks fail in their order, and when they pass
the operation answers or raises an error of its own. -/
theorem checksFailInOrder : Obligations.ChecksFailInOrder := by
  intro sn
  have hcommand : reservedOp sn.op = false → ∃ c, Command.ofOp sn.op = some c ∧ sn.op = c.op := fun h => by
    obtain ⟨c, hc⟩ := Option.isSome_iff_exists.1 (ofOp_isSome sn.op h)
    exact ⟨c, hc, (ofOp_eq_some_iff _ c).1 hc⟩
  refine ⟨?badop, fun hop hp => ?param, fun hop hp hne h1 => ?rangeP1, fun hop hp _ h2 => ?rangeP2,
    fun hop hp h1 h2 => ?operation⟩
  case badop => exact fun hop => execute_reserved (ofOp_reserved hop)
  case param =>
    obtain ⟨c, hc, -⟩ := hcommand hop
    exact execute_of_failed_check hc (checkOperands_param hp) nofun
  case rangeP1 =>
    obtain ⟨c, hc, heq⟩ := hcommand hop
    exact execute_of_failed_check hc (checkOperands_range_p1 hp ((checksP1_iff c).2 (heq ▸ hne)) h1) nofun
  case rangeP2 =>
    have hc : Command.ofOp sn.op = some .add := (ofOp_eq_some_iff _ _).2 hop
    exact execute_of_failed_check hc (checkOperands_range_p2 hp rfl h2) nofun
  case operation =>
    obtain ⟨c, hc, heq⟩ := hcommand hop
    have hpass : checkOperands sn c = .none :=
      checkOperands_none hp (fun h => h1 (heq ▸ (checksP1_iff c).1 h)) (fun h => h2 (heq ▸ (checksP2_iff c).1 h))
    rw [execute_of_passed_checks hc hpass, heq]
    cases hrun : runCommand sn c with
    | ok res => exact .inl ⟨res, rfl⟩
    | error e =>
      obtain ⟨rfl, rfl⟩ | ⟨hraises, rfl⟩ := runCommand_error hrun
      · exact .inr (.inl ⟨rfl, rfl⟩)
      · have hop' : c.op = 1 ∨ c.op = 2 ∨ c.op = 5 :=
          hraises.imp (congrArg Command.op) (.imp (congrArg Command.op) (congrArg Command.op))
        exact .inr (.inr ⟨hop', rfl⟩)

end Sys2Proof.Proofs
end

