-- ==== Sys2Proof/Proofs/FieldInverse.lean ====
section
/-! PROOFS. The modular inverse (41_field_arithmetic R112) and the command INV (R113): the loop of extended Euclid ends
with the greatest common divisor and its Bézout coefficient, so `finv` answers exactly where an inverse exists, and an
inverse is unique. INV then commits that answer, or reports that there is none. -/

namespace Sys2Proof.Proofs

open Sys2Proof.Machine Sys2Proof.Laws Sys2Proof.Expect

/-! ## The inverse -/

/-- The loop as `finv` starts it ends with r0 = gcd(a, m), and r0 ≡ t0 · a modulo m (41_field_arithmetic R112). -/
theorem euclid_of_finv (a : Nat) {m : Nat} (hm : 0 < m) :
    (euclid m m (residue a m) 0 1).1 = Nat.gcd a m ∧
      (m : Int) ∣ ((euclid m m (residue a m) 0 1).1 : Int) - (euclid m m (residue a m) 0 1).2 * a := by
  have hr1 : (m : Int) ∣ (residue a m : Int) - 1 * a := by
    rw [residue_eq _ hm, one_mul, ← Int.modEq_iff_dvd]
    exact (Int.mod_modEq a m).symm
  obtain ⟨hgcd, hdvd⟩ := euclid_spec m a m m (residue a m) 0 1 (residue_lt _ hm).le (by simp) hr1
  refine ⟨?_, hdvd⟩
  rw [hgcd, residue_ofNat a hm, Nat.gcd_comm, ← Nat.gcd_rec, Nat.gcd_comm]

/-- Coprime operands: `finv` answers the residue of Bézout's coefficient (41_field_arithmetic R112). -/
theorem finv_of_coprime {a m : Nat} (hm : 0 < m) (h : Nat.gcd a m = 1) :
    finv a m = some (residue (euclid m m (residue a m) 0 1).2 m) := by
  rw [← (euclid_of_finv a hm).1] at h
  exact if_pos h

/-- NoInverse is raised exactly where the operands are not coprime (41_field_arithmetic R112). -/
theorem finv_eq_none_iff (a : Nat) {m : Nat} (hm : 0 < m) : finv a m = none ↔ Nat.gcd a m ≠ 1 := by
  constructor
  · intro h hcoprime
    rw [finv_of_coprime hm hcoprime] at h
    cases h
  · intro h
    rw [← (euclid_of_finv a hm).1] at h
    exact if_neg h

/-- The answer of `finv` is an inverse: t0 · a ≡ r0 = 1 modulo m. -/
theorem mul_finv_modEq_one {a m x : Nat} (hm : 0 < m) (h : finv a m = some x) : a * x ≡ 1 [MOD m] := by
  obtain ⟨hgcd, hdvd⟩ := euclid_of_finv a hm
  have hcoprime : Nat.gcd a m = 1 := by
    by_contra hne
    rw [(finv_eq_none_iff a hm).2 hne] at h
    cases h
  rw [finv_of_coprime hm hcoprime] at h
  cases h
  rw [hgcd, hcoprime, ← Int.modEq_iff_dvd] at hdvd
  rw [← Int.natCast_modEq_iff, Nat.cast_mul, residue_eq _ hm, mul_comm]
  exact ((Int.mod_modEq _ _).mul_right _).trans hdvd

/-- At most one residue inverts a. -/
theorem inverse_unique {a m x y : Nat} (hx : x < m) (hy : y < m) (hax : a * x ≡ 1 [MOD m]) (hay : a * y ≡ 1 [MOD m]) :
    x = y :=
  ((hax.trans hay.symm).cancel_left_of_coprime (Nat.coprime_of_mul_modEq_one x hax).symm).eq_of_lt_of_lt hx hy

/-- `finv` answers the one residue that inverts a modulo m (41_field_arithmetic R112). -/
theorem finv_eq_some_iff {a m x : Nat} (hm : 0 < m) : finv a m = some x ↔ x < m ∧ a * x ≡ 1 [MOD m] := by
  constructor
  · exact fun h => ⟨finv_lt hm h, mul_finv_modEq_one hm h⟩
  · rintro ⟨hlt, hinv⟩
    cases h : finv a m with
    | none => exact absurd (Nat.coprime_of_mul_modEq_one x hinv) ((finv_eq_none_iff a hm).1 h)
    | some y => rw [inverse_unique (finv_lt hm h) hlt (mul_finv_modEq_one hm h) hinv]

/-- For a modulus of at least 2, congruence to 1 is the remainder 1. -/
theorem modEq_one_iff {v m : Nat} (hm : 2 ≤ m) : v ≡ 1 [MOD m] ↔ v % m = 1 := by
  rw [Nat.ModEq, Nat.mod_eq_of_lt hm]

/-- Settles O25: Bézout's coefficient is an inverse, an inverse is unique and needs coprime operands, and m ≥ 2 makes
congruence to 1 the remainder 1. -/
theorem finvAnswersTheUniqueInverse : Obligations.FinvAnswersTheUniqueInverse := by
  intro a m hm
  have hpos : 0 < m := by omega
  refine ⟨fun x => ?_, finv_eq_none_iff a hpos⟩
  rw [finv_eq_some_iff hpos, modEq_one_iff hm]

/-! ## INV -/

/-- An accepted request whose outcome is a result ends with that result committed to the state that `Expect.succeeded`
gives (40_command_engine R101, R103). -/
theorem completes_committed {i : Instr} {op : BitVec 4} {s : State} {res : Result} (hi : requestOp i = some op)
    (hb : s.busy = false) (hf : s.fatal = false) (h : execute (s.snapshot op) = .ok res) :
    completes i s ((succeeded s op).commit res) := by
  have hend : (s.accept op).complete (.ok res) = (succeeded s op).commit res := by
    rw [complete_ok (s := s.accept op) rfl, succeeded, ← eng_of_not_busy hb]
    cases res with
    | point q => cases q <;> rfl
    | inverse x => rfl
    | onCurve b => rfl
  rw [← hend, ← h]
  exact completes_of_requestOp hi hb hf

/-- With P at least 2 the outcome of INV is that of `finv` on X1 and P, whatever else the snapshot holds
(41_field_arithmetic R113, 40_command_engine R102). -/
theorem execute_inv {sn : Snapshot} (hop : sn.op = 4) (hp : 2 ≤ sn.p.toNat) : execute sn = runInv sn :=
  execute_of_passed_checks ((ofOp_eq_some_iff _ .inv).2 hop) (checkOperands_none hp nofun nofun)

/-- The outcome of INV where `finv` answers. -/
theorem runInv_of_some {sn : Snapshot} {x : Nat} (h : finv sn.x1.toNat sn.p.toNat = some x) :
    runInv sn = .ok (.inverse x) := by
  rw [runInv, h]

/-- The outcome of INV where `finv` raises NoInverse: ERR_NOINV (41_field_arithmetic R115). -/
theorem runInv_of_none {sn : Snapshot} (h : finv sn.x1.toNat sn.p.toNat = none) : runInv sn = .error .noinv := by
  rw [runInv, h]

/-- Settles O18: INV has the one check on P, so its outcome is that of `finv`, which answers exactly for coprime operands. -/
theorem invCommitsTheInverse : Obligations.InvCommitsTheInverse := by
  intro s hb hf hp
  have hpos : 0 < s.regs.p.toNat := by omega
  have hexec : execute (s.snapshot 4) = runInv (s.snapshot 4) := execute_inv rfl hp
  cases hfinv : finv s.regs.x1.toNat s.regs.p.toNat with
  | none =>
    have hgcd := (finv_eq_none_iff _ hpos).1 hfinv
    exact ⟨fun h => absurd h hgcd, fun _ => completes_failed rfl hb hf (hexec.trans (runInv_of_none hfinv))⟩
  | some x =>
    obtain ⟨hlt, hinv⟩ := (finv_eq_some_iff hpos).1 hfinv
    have hgcd := Nat.coprime_of_mul_modEq_one x hinv
    exact ⟨fun _ => ⟨x, hlt, (modEq_one_iff hp).1 hinv,
      completes_committed rfl hb hf (hexec.trans (runInv_of_some hfinv))⟩, fun h => absurd hgcd h⟩

end Sys2Proof.Proofs
end

