-- ==== Sys2Proof/Proofs/GroupLaw.lean ====
section
/-! PROOFS. The group law on affine points (42_point_ops R126 to R128): numerator and denominator of the slope as exact
integers, and what `padd` answers for each kind of denominator. The laws of R132 that need no premise and the absence of
FATAL for a prime modulus (R127) follow. -/

namespace Sys2Proof.Proofs

open Sys2Proof.Machine Sys2Proof.Laws

/-! ## The slope -/

/-- The numerator of the slope as an exact integer, before `slopeParts` reduces it (42_point_ops R126). -/
def slopeNum (a x1 y1 x2 y2 : Nat) : Int := if x1 = x2 ∧ y1 = y2 then 3 * x1 * x1 + a else y2 - y1

/-- The denominator of the slope as an exact integer, before `slopeParts` reduces it (42_point_ops R126). -/
def slopeDen (x1 y1 x2 y2 : Nat) : Int := if x1 = x2 ∧ y1 = y2 then 2 * y1 else x2 - x1

theorem slopeNum_double (a x y : Nat) : slopeNum a x y x y = 3 * x * x + a := if_pos ⟨rfl, rfl⟩

theorem slopeDen_double (x y : Nat) : slopeDen x y x y = 2 * y := if_pos ⟨rfl, rfl⟩

/-- The slope of a chord and of the same chord from its other end: numerator and denominator change sign together. -/
theorem slope_swap (a : Nat) {x1 y1 x2 y2 : Nat} (h : ¬(x1 = x2 ∧ y1 = y2)) :
    slopeNum a x2 y2 x1 y1 = -slopeNum a x1 y1 x2 y2 ∧ slopeDen x2 y2 x1 y1 = -slopeDen x1 y1 x2 y2 := by
  have h' : ¬(x2 = x1 ∧ y2 = y1) := fun ⟨hx, hy⟩ => h ⟨hx.symm, hy.symm⟩
  simp only [slopeNum, slopeDen, if_neg h, if_neg h', neg_sub, and_self]

/-- `slopeParts` answers the residues of the two integers. -/
theorem slopeParts_eq (a p x1 y1 x2 y2 : Nat) :
    slopeParts a p x1 y1 x2 y2 = (residue (slopeNum a x1 y1 x2 y2) p, residue (slopeDen x1 y1 x2 y2) p) := by
  by_cases h : x1 = x2 ∧ y1 = y2
  · simp only [slopeParts, slopeNum, slopeDen, if_pos h]
  · simp only [slopeParts, slopeNum, slopeDen, if_neg h, fsub]

/-- A residue is congruent to its integer. -/
theorem residue_modEq (v : Int) {m : Nat} (hm : 0 < m) : (residue v m : Int) ≡ v [ZMOD m] := by
  rw [residue_eq v hm]
  exact Int.mod_modEq v m

/-- A residue is 0 exactly for a multiple of the modulus. -/
theorem residue_eq_zero_iff (v : Int) {m : Nat} (hm : 0 < m) : residue v m = 0 ↔ (m : Int) ∣ v := by
  rw [← Int.natCast_eq_zero, residue_eq v hm, Int.dvd_iff_emod_eq_zero]

/-- A residue shares its divisors with the modulus as its integer does. -/
theorem gcd_residue (v : Int) {m : Nat} (hm : 0 < m) : Nat.gcd (residue v m) m = Int.gcd v m := by
  rw [← Int.gcd_natCast_natCast, residue_eq v hm, Int.gcd_emod]

/-- A slope λ with λ·den ≡ num is determined modulo p where the denominator is coprime to p. -/
theorem slope_unique {lam lam' num den : Int} {p : Nat} (hp : 0 < p) (hgcd : Int.gcd den p = 1)
    (h : lam * den ≡ num [ZMOD p]) (h' : lam' * den ≡ num [ZMOD p]) : lam ≡ lam' [ZMOD p] := by
  have hcancel := Int.ModEq.cancel_right_div_gcd (Int.natCast_pos.2 hp) (h.trans h'.symm)
  rwa [Int.gcd_comm, hgcd, Nat.cast_one, Int.ediv_one] at hcancel

/-- Numerator times inverse of the denominator is a slope: its product with the denominator is the numerator. -/
theorem fmul_finv_modEq {num den : Int} {p i : Nat} (hp : 0 < p) (h : finv (residue den p) p = some i) :
    (fmul p (residue num p) i : Int) * den ≡ num [ZMOD p] := by
  have hinv : (residue den p : Int) * i ≡ 1 [ZMOD p] := by exact_mod_cast mul_finv_modEq_one hp h
  calc (fmul p (residue num p) i : Int) * den
      ≡ num * i * residue den p [ZMOD p] :=
        ((residue_modEq _ hp).trans ((residue_modEq num hp).mul_right _)).mul (residue_modEq den hp).symm
    _ = num * (residue den p * i) := by ring
    _ ≡ num * 1 [ZMOD p] := hinv.mul_left num
    _ = num := mul_one num

/-! ## The group law by cases of the denominator -/

section
variable {p x1 y1 x2 y2 : Nat}

/-- A denominator that is 0 modulo p: Identity (42_point_ops R127). -/
theorem padd_of_dvd_den (a : Nat) (hp : 0 < p) (h : (p : Int) ∣ slopeDen x1 y1 x2 y2) :
    padd a p (.affine x1 y1) (.affine x2 y2) = .ok .identity := by
  rw [padd, slopeParts_eq]
  exact if_pos ((residue_eq_zero_iff _ hp).2 h)

/-- Another denominator that is not coprime to p: FATAL (42_point_ops R127). -/
theorem padd_of_shared_factor (a : Nat) (hp : 0 < p) (h : ¬ (p : Int) ∣ slopeDen x1 y1 x2 y2)
    (hgcd : Int.gcd (slopeDen x1 y1 x2 y2) p ≠ 1) : padd a p (.affine x1 y1) (.affine x2 y2) = .error .fatal := by
  have hden := mt (residue_eq_zero_iff _ hp).1 h
  have hinv := (finv_eq_none_iff _ hp).2 (gcd_residue _ hp ▸ hgcd)
  simp only [padd, slopeParts_eq, if_neg hden, hinv]

/-- A denominator coprime to p: the point of 42_point_ops R128 for a slope λ with λ·den ≡ num. -/
theorem padd_of_coprime (a : Nat) (hp : 0 < p) (h : ¬ (p : Int) ∣ slopeDen x1 y1 x2 y2)
    (hgcd : Int.gcd (slopeDen x1 y1 x2 y2) p = 1) :
    ∃ lam : Nat, lam < p ∧ (lam : Int) * slopeDen x1 y1 x2 y2 ≡ slopeNum a x1 y1 x2 y2 [ZMOD p] ∧
      padd a p (.affine x1 y1) (.affine x2 y2) = .ok (chord p lam x1 y1 x2) := by
  have hden := mt (residue_eq_zero_iff _ hp).1 h
  obtain ⟨i, hinv⟩ : ∃ i, finv (residue (slopeDen x1 y1 x2 y2) p) p = some i :=
    ⟨_, finv_of_coprime hp ((gcd_residue _ hp).trans hgcd)⟩
  refine ⟨fmul p (residue (slopeNum a x1 y1 x2 y2) p) i, residue_lt _ hp, fmul_finv_modEq hp hinv, ?_⟩
  simp only [padd, slopeParts_eq, if_neg hden, hinv]

end

/-- Settles O27: the reduced denominator of the statement is 0, coprime to p or neither exactly as the exact one is. -/
theorem groupLawOnAffinePoints : Obligations.GroupLawOnAffinePoints := by
  intro a p x1 y1 x2 y2 hp _ _ _ _ num den hnum hden
  have hpos : 0 < p := by omega
  replace hnum : num = slopeNum a x1 y1 x2 y2 % p := by rw [hnum, slopeNum, apply_ite (· % (p : Int))]
  replace hden : den = slopeDen x1 y1 x2 y2 % p := by rw [hden, slopeDen, apply_ite (· % (p : Int))]
  rw [hnum, hden, ne_eq, ← Int.dvd_iff_emod_eq_zero, Int.gcd_emod]
  refine ⟨fun h => ?identity, fun h hgcd => ?affine, fun h hgcd => ?fatal⟩
  case identity => exact padd_of_dvd_den a hpos h
  case affine =>
    obtain ⟨lam, hlt, hslope, hadd⟩ := padd_of_coprime a hpos h hgcd
    have hreduced := ((Int.mod_modEq (slopeDen x1 y1 x2 y2) p).mul_left (lam : Int)).trans
      (hslope.trans (Int.mod_modEq _ _).symm)
    exact ⟨lam, _, _, hlt, Int.emod_eq_zero_of_dvd hreduced.symm.dvd, residue_eq _ hpos, residue_eq _ hpos, hadd⟩
  case fatal => exact padd_of_shared_factor a hpos h hgcd

/-! ## Identity, inverse and commutative laws -/

/-- Identity on the right: the point (42_point_ops R125). -/
theorem padd_identity_right (a p : Nat) (q : Pt) : padd a p q .identity = .ok q := by
  cases q <;> rfl

/-- A point and its negative: the denominator is x − x for a chord, and 2y ≡ 0 for a point that is its own negative
(42_point_ops R132). -/
theorem padd_pneg (a : Nat) {p : Nat} (hp : 0 < p) (q : Pt) : padd a p q (pneg p q) = .ok .identity := by
  cases q with
  | identity => rfl
  | affine x y =>
    refine padd_of_dvd_den a hp ?_
    by_cases h : y = fneg p y
    · have hself : (y : Int) ≡ -y [ZMOD p] := by
        conv_lhs => rw [h]
        exact residue_modEq _ hp
      rw [← h, slopeDen_double]
      simpa [two_mul] using hself.symm.dvd
    · rw [slopeDen, if_neg (fun hxy => h hxy.2), sub_self]
      exact dvd_zero _

/-- The point of 42_point_ops R128 depends on the slope modulo p only. -/
theorem chord_congr {p lam lam' : Nat} (h : (lam : Int) ≡ lam' [ZMOD p]) (x1 y1 x2 : Nat) :
    chord p lam x1 y1 x2 = chord p lam' x1 y1 x2 := by
  have hx : residue ((lam : Int) * lam - x1 - x2) p = residue ((lam' : Int) * lam' - x1 - x2) p :=
    residue_congr (((h.mul h).sub_right _).sub_right _)
  simp only [chord, hx, Pt.affine.injEq, true_and]
  exact residue_congr ((h.mul_right _).sub_right _)

/-- Either end of a chord gives the same third point, since its slope passes through both. -/
theorem chord_swap {p lam x1 y1 x2 y2 : Nat} (h : (lam : Int) * (x2 - x1) ≡ y2 - y1 [ZMOD p]) :
    chord p lam x2 y2 x1 = chord p lam x1 y1 x2 := by
  have hx : (lam : Int) * lam - x2 - x1 = lam * lam - x1 - x2 := by ring
  simp only [chord, hx, Pt.affine.injEq, true_and]
  generalize residue ((lam : Int) * lam - x1 - x2) p = x3
  refine residue_congr (Int.modEq_iff_dvd.2 ?_)
  convert h.dvd using 1
  ring

/-- Addition commutes, errors included (42_point_ops R132). -/
theorem padd_comm (a : Nat) {p : Nat} (hp : 0 < p) (q r : Pt) : padd a p q r = padd a p r q := by
  cases q with
  | identity => exact (padd_identity_right a p r).symm
  | affine x1 y1 =>
    cases r with
    | identity => rfl
    | affine x2 y2 =>
      by_cases heq : x1 = x2 ∧ y1 = y2
      · obtain ⟨rfl, rfl⟩ := heq
        rfl
      obtain ⟨hnum, hden⟩ := slope_swap a heq
      by_cases hdvd : (p : Int) ∣ slopeDen x1 y1 x2 y2
      · rw [padd_of_dvd_den a hp hdvd, padd_of_dvd_den a hp (hden ▸ dvd_neg.2 hdvd)]
      have hdvd' : ¬ (p : Int) ∣ slopeDen x2 y2 x1 y1 := by rwa [hden, dvd_neg]
      have hgcd' : Int.gcd (slopeDen x2 y2 x1 y1) p = Int.gcd (slopeDen x1 y1 x2 y2) p := by rw [hden, Int.neg_gcd]
      by_cases hgcd : Int.gcd (slopeDen x1 y1 x2 y2) p = 1
      · obtain ⟨lam, -, hslope, hadd⟩ := padd_of_coprime a hp hdvd hgcd
        obtain ⟨lam', -, hslope', hadd'⟩ := padd_of_coprime a hp hdvd' (hgcd'.trans hgcd)
        rw [hnum, hden, mul_neg, Int.neg_modEq_neg] at hslope'
        rw [hadd, hadd', chord_congr (slope_unique hp hgcd hslope' hslope)]
        rw [slopeNum, slopeDen, if_neg heq, if_neg heq] at hslope
        rw [chord_swap hslope]
      · rw [padd_of_shared_factor a hp hdvd hgcd, padd_of_shared_factor a hp hdvd' (hgcd' ▸ hgcd)]

/-- Settles O28: the laws need neither the range of the points nor the curve, only a positive modulus. -/
theorem groupLawsForEveryInRangePoint : Obligations.GroupLawsForEveryInRangePoint := by
  intro a p q r hp _ _
  have hpos : 0 < p := by omega
  exact ⟨padd_identity_right a p q, rfl, padd_pneg a hpos q, padd_comm a hpos q r⟩

/-! ## A prime modulus -/

/-- An integer that is no multiple of a prime is coprime to it. -/
theorem gcd_eq_one_of_prime {p : Nat} (hp : p.Prime) {v : Int} (h : ¬ (p : Int) ∣ v) : Int.gcd v p = 1 := by
  rw [Int.gcd_comm]
  exact Int.isCoprime_iff_gcd_eq_one.1 ((Nat.prime_iff_prime_int.1 hp).coprime_iff_not_dvd.2 h)

/-- For a prime modulus the group law answers a point (42_point_ops R127). -/
theorem padd_ok_of_prime (a : Nat) {p : Nat} (hp : p.Prime) (q r : Pt) : ∃ t, padd a p q r = .ok t := by
  cases q with
  | identity => exact ⟨r, rfl⟩
  | affine x1 y1 =>
    cases r with
    | identity => exact ⟨_, rfl⟩
    | affine x2 y2 =>
      by_cases hdvd : (p : Int) ∣ slopeDen x1 y1 x2 y2
      · exact ⟨_, padd_of_dvd_den a hp.pos hdvd⟩
      · obtain ⟨lam, -, -, hadd⟩ := padd_of_coprime a hp.pos hdvd (gcd_eq_one_of_prime hp hdvd)
        exact ⟨_, hadd⟩

/-- Where the group law always answers a point, so does an iteration of the SMUL loop (43_scalar_multiply R140). -/
theorem smulIter_ok {a p : Nat} (h : ∀ q r, ∃ t, padd a p q r = .ok t) (w : SmulLoop) :
    ∃ w', smulIter a p w = .ok w' := by
  obtain ⟨t, ht⟩ := h w.temp w.temp
  obtain ⟨r, hr⟩ := h w.result w.temp
  by_cases hbit : w.n % 2 = 1
  · exact ⟨⟨r, t, w.n / 2⟩, by simp only [smulIter, if_pos hbit, hr, ht]⟩
  · exact ⟨⟨w.result, t, w.n / 2⟩, by simp only [smulIter, if_neg hbit, ht]⟩

/-- Where the group law always answers a point, so does the SMUL loop: n halves at each iteration. -/
theorem smulLoop_ok {a p : Nat} (h : ∀ q r, ∃ t, padd a p q r = .ok t) (w : SmulLoop) :
    ∃ t, smulLoop a p w = .ok t := by
  induction hn : w.n using Nat.strong_induction_on generalizing w with
  | _ n ih =>
    by_cases h0 : w.n = 0
    · exact ⟨_, smulLoop_zero a p h0⟩
    · obtain ⟨w', hw'⟩ := smulIter_ok h w
      have hhalf := smulIter_n hw'
      rw [smulLoop_step a p h0, hw']
      exact ih w'.n (by omega) w' rfl

/-- Settles O29: a prime modulus leaves no denominator of the third kind, so every addition of the loop answers too. -/
theorem primeModulusNeverFatal : Obligations.PrimeModulusNeverFatal := by
  intro a p q r n hp _ _
  have hadd := padd_ok_of_prime a hp
  rw [psmul_eq_loop]
  exact ⟨hadd q r, smulLoop_ok hadd _⟩

end Sys2Proof.Proofs
end

