-- ==== Sys2Proof/Proofs/CurveClosure.lean ====
section
/-! PROOFS. The curve of the engine as Mathlib's Weierstrass curve over the integers modulo p, and the group law as its
addition formulas (42_point_ops R121, R126, R128): sums then stay on the curve by Mathlib's theorem. -/

namespace Sys2Proof.Proofs

open Sys2Proof.Machine Sys2Proof.Laws Sys2Proof.Expect

/-- y² = x³ + ax + b over the integers modulo p (42_point_ops R121). -/
def shortCurve (a b p : Nat) : WeierstrassCurve.Affine (ZMod p) := ⟨0, 0, 0, a, b⟩

/-- The negative on the curve is (x, −y) (42_point_ops R123). -/
@[simp] theorem shortCurve_negY (a b p : Nat) (x y : ZMod p) : (shortCurve a b p).negY x y = -y := by
  simp [WeierstrassCurve.Affine.negY, shortCurve]

/-- A residue is its integer modulo p. -/
theorem cast_residue (v : Int) {p : Nat} (hp : 0 < p) : ((residue v p : Nat) : ZMod p) = (v : ZMod p) := by
  rw [← Int.cast_natCast, residue_eq v hp, ZMod.intCast_mod]

/-- The curve equation of the spec is Mathlib's, of the coordinates modulo p (42_point_ops R121). -/
theorem onCurve_affine_iff (a b p x y : Nat) :
    onCurve a b p (.affine x y) ↔ (shortCurve a b p).Equation (x : ZMod p) (y : ZMod p) := by
  rw [onCurve, ← Int.dvd_iff_emod_eq_zero, ← ZMod.intCast_zmod_eq_zero_iff_dvd, WeierstrassCurve.Affine.equation_iff,
    ← sub_eq_zero (b := _ + _)]
  push_cast [shortCurve]
  ring_nf

section
variable {p x1 y1 x2 y2 : Nat} [Fact p.Prime]

/-- The two forms of a denominator that is not 0 modulo p: twice a nonzero y, or the distance of two different x. -/
theorem slopeDen_cases (hden : ¬ (p : Int) ∣ slopeDen x1 y1 x2 y2) :
    ((x1 = x2 ∧ y1 = y2) ∧ (y1 : ZMod p) - -y1 ≠ 0) ∨ (¬(x1 = x2 ∧ y1 = y2) ∧ (x1 : ZMod p) - x2 ≠ 0) := by
  rw [← ZMod.intCast_zmod_eq_zero_iff_dvd] at hden
  by_cases h : x1 = x2 ∧ y1 = y2
  · rw [slopeDen, if_pos h] at hden
    exact .inl ⟨h, by simpa [two_mul] using hden⟩
  · rw [slopeDen, if_neg h] at hden
    exact .inr ⟨h, by simpa [sub_eq_zero, eq_comm] using hden⟩

/-- Where the denominator is not 0 modulo p, neither point is the negative of the other. -/
theorem not_opposite (a b : Nat) (hden : ¬ (p : Int) ∣ slopeDen x1 y1 x2 y2) :
    ¬((x1 : ZMod p) = x2 ∧ (y1 : ZMod p) = (shortCurve a b p).negY x2 y2) := by
  rintro ⟨hx, hy⟩
  obtain ⟨⟨-, rfl⟩, hne⟩ | ⟨-, hne⟩ := slopeDen_cases hden
  · rw [shortCurve_negY] at hy
    exact hne (sub_eq_zero.2 hy)
  · exact hne (sub_eq_zero.2 hx)

/-- A slope λ with λ·den ≡ num is the slope of Mathlib's addition (42_point_ops R126, R127). -/
theorem cast_slope (b : Nat) {a lam : Nat} (hden : ¬ (p : Int) ∣ slopeDen x1 y1 x2 y2)
    (hlam : (lam : Int) * slopeDen x1 y1 x2 y2 ≡ slopeNum a x1 y1 x2 y2 [ZMOD p]) :
    (lam : ZMod p) = (shortCurve a b p).slope x1 x2 y1 y2 := by
  rw [← ZMod.intCast_eq_intCast_iff] at hlam
  obtain ⟨⟨rfl, rfl⟩, hne⟩ | ⟨h, hne⟩ := slopeDen_cases hden
  · have hy : (y1 : ZMod p) ≠ (shortCurve a b p).negY x1 y1 := by
      rwa [shortCurve_negY, ← sub_ne_zero]
    rw [slopeDen_double, slopeNum_double] at hlam
    rw [WeierstrassCurve.Affine.slope_of_Y_ne rfl hy, shortCurve_negY, eq_div_iff hne]
    push_cast [shortCurve] at hlam ⊢
    linear_combination hlam
  · rw [slopeDen, slopeNum, if_neg h, if_neg h] at hlam
    rw [WeierstrassCurve.Affine.slope_of_X_ne (sub_ne_zero.1 hne), eq_div_iff hne]
    push_cast at hlam
    linear_combination -hlam

/-- Where the denominator is not 0 modulo a prime p, the group law is Mathlib's addition of two affine points
(42_point_ops R126 to R128). -/
theorem padd_eq_curve_add (a b : Nat) (hden : ¬ (p : Int) ∣ slopeDen x1 y1 x2 y2) :
    ∃ x3 y3 : Nat, padd a p (.affine x1 y1) (.affine x2 y2) = .ok (.affine x3 y3) ∧
      (x3 : ZMod p) = (shortCurve a b p).addX x1 x2 ((shortCurve a b p).slope x1 x2 y1 y2) ∧
      (y3 : ZMod p) = (shortCurve a b p).addY x1 x2 y1 ((shortCurve a b p).slope x1 x2 y1 y2) := by
  have hp : p.Prime := Fact.out
  obtain ⟨lam, -, hlam, hadd⟩ := padd_of_coprime a hp.pos hden (gcd_eq_one_of_prime hp hden)
  have hx : ((residue ((lam : Int) * lam - x1 - x2) p : Nat) : ZMod p) = (shortCurve a b p).addX x1 x2 lam := by
    rw [cast_residue _ hp.pos, WeierstrassCurve.Affine.addX]
    push_cast [shortCurve]
    ring
  refine ⟨_, _, hadd, ?_, ?_⟩
  · rw [hx, cast_slope b hden hlam]
  · rw [cast_residue _ hp.pos, ← cast_slope b hden hlam, WeierstrassCurve.Affine.addY, shortCurve_negY,
      WeierstrassCurve.Affine.negAddY, ← hx]
    push_cast
    ring

end

/-- Settles O30: Identity and an operand are on the curve as they stand, and any other sum is Mathlib's sum of two points of
the curve. -/
theorem sumStaysOnTheCurve : Obligations.SumStaysOnTheCurve := by
  rintro a b p q r t ⟨hprime, -, -⟩ - - hq hr hadd
  have : Fact p.Prime := ⟨hprime⟩
  cases q with
  | identity => cases hadd; exact hr
  | affine x1 y1 =>
    cases r with
    | identity => cases hadd; exact hq
    | affine x2 y2 =>
      by_cases hden : (p : Int) ∣ slopeDen x1 y1 x2 y2
      · rw [padd_of_dvd_den a hprime.pos hden] at hadd
        cases hadd
        exact trivial
      · obtain ⟨x3, y3, hsum, hx, hy⟩ := padd_eq_curve_add a b hden
        rw [hsum] at hadd
        cases hadd
        rw [onCurve_affine_iff] at hq hr ⊢
        rw [hx, hy]
        exact WeierstrassCurve.Affine.equation_add hq hr (not_opposite a b hden)

end Sys2Proof.Proofs
end

