-- ==== Sys2Proof/Proofs/PointCommands.lean ====
section
/-! PROOFS. The commands on points, ADD, DBL, NEG and CHK (42_point_ops R122, R124, R129, R130): with the checks passed the
outcome of `Execute` is that of the operation function, and the completion commits it or reports its error. -/

namespace Sys2Proof.Proofs

open Sys2Proof.Machine Sys2Proof.Laws Sys2Proof.Expect

/-- The outcome of a command whose checks pass on the registers as they stand: its operation (40_command_engine R102). -/
theorem execute_snapshot {s : State} (c : Command) (hp : 2 ≤ s.regs.p.toNat)
    (h1 : c.checksP1 = true → s.p1.inRange s.regs.p.toNat = true)
    (h2 : c.checksP2 = true → s.p2.inRange s.regs.p.toNat = true) :
    execute (s.snapshot c.op) = runCommand (s.snapshot c.op) c :=
  execute_of_passed_checks ((ofOp_eq_some_iff _ c).2 rfl) (checkOperands_none hp h1 h2)

/-- An accepted request for a point ends with the point committed, or with the error of the operation function
(40_command_engine R101, 10_state R49). -/
theorem completes_pointOutcome {i : Instr} {op : BitVec 4} {s : State} {o : Except ErrCode Pt} (hi : requestOp i = some op)
    (hb : s.busy = false) (hf : s.fatal = false) (h : execute (s.snapshot op) = pointResult o) :
    completes i s (pointOutcome s op o) := by
  cases o with
  | ok q =>
    have hcommit : (succeeded s op).commit (.point q) = pointCommitted s op q := by cases q <;> rfl
    rw [pointOutcome, ← hcommit]
    exact completes_committed hi hb hf h
  | error e => exact completes_failed hi hb hf h

/-- Settles O15: the operation of ADD is `padd` of the two operand points. -/
theorem addCommitsTheSum : Obligations.AddCommitsTheSum :=
  fun _ hb hf hp h1 h2 => completes_pointOutcome rfl hb hf (execute_snapshot .add hp (fun _ => h1) (fun _ => h2))

/-- Settles O16: the operation of DBL is `padd` of P1 with itself, and P2 is not checked. -/
theorem dblCommitsTheDouble : Obligations.DblCommitsTheDouble :=
  fun _ hb hf hp h1 => completes_pointOutcome rfl hb hf (execute_snapshot .dbl hp (fun _ => h1) nofun)

/-- The negative of an affine point, with the remainder of R123 written out. -/
theorem pneg_affine {p : Nat} (hp : 0 < p) (x y : Nat) : pneg p (.affine x y) = .affine x ((-(y : Int)) % p).toNat := by
  rw [pneg, fneg, ← residue_eq _ hp, Int.toNat_natCast]

/-- NEG with P1 in range commits `pneg` of it (42_point_ops R124). -/
theorem completes_neg {s : State} (hb : s.busy = false) (hf : s.fatal = false) (hp : 2 ≤ s.regs.p.toNat)
    (h1 : s.p1.inRange s.regs.p.toNat = true) : completes .neg s (pointCommitted s 3 (pneg s.regs.p.toNat s.p1)) :=
  completes_pointOutcome (o := .ok _) rfl hb hf (execute_snapshot .neg hp (fun _ => h1) nofun)

/-- Settles O17: INF1 decides whether P1 is Identity or the affine point of X1 and Y1, and NEG commits its negative. -/
theorem negCommitsTheNegative : Obligations.NegCommitsTheNegative := by
  intro s hb hf hp
  refine ⟨fun hinf => ?identity, fun hinf hx hy => ?affine⟩
  case identity =>
    have hp1 : s.p1 = .identity := if_pos hinf
    have hneg := completes_neg hb hf hp (by rw [hp1]; rfl)
    rwa [hp1] at hneg
  case affine =>
    have hp1 : s.p1 = .affine s.regs.x1.toNat s.regs.y1.toNat := if_neg (ne_true_of_eq_false hinf)
    have hneg := completes_neg hb hf hp (by rw [hp1]; exact (inRange_affine ..).2 ⟨hx, hy⟩)
    rwa [hp1, pneg_affine (by omega)] at hneg

/-- Settles O20: CHK commits the answer of `pchk`, which decides the curve equation. -/
theorem chkReportsMembership : Obligations.ChkReportsMembership := by
  intro s hb hf hp h1
  exact ⟨_, pchk_iff_onCurve (by omega) _ _ _,
    completes_committed rfl hb hf (execute_snapshot .chk hp (fun _ => h1) nofun)⟩

end Sys2Proof.Proofs
end

