-- ==== Sys2Proof/Proofs/ScalarLoop.lean ====
section
/-! PROOFS. The SMUL loop against the doublings and the sum it computes (43_scalar_multiply R140 to R144), and the command
SMUL. One iteration is one step of both recursions, so after `k` iterations that raise nothing the loop variables are
those of the first `k` bits, and the loop answers exactly when no step of either raises. -/

namespace Sys2Proof.Proofs

open Sys2Proof.Machine Sys2Proof.Laws Sys2Proof.Expect

/-! ## Redirection -/

/-- Scalar multiplication is the loop on the magnitude, from the point or, below 0, from its negative
(43_scalar_multiply R142). -/
theorem psmul_eq_dbladd (a p : Nat) (q : Pt) (n : Int) :
    psmul a p q n = dbladd a p (if n < 0 then pneg p q else q) n.natAbs := by
  by_cases hn : n < 0
  · have habs : (-n).toNat = n.natAbs := by omega
    rw [psmul, if_pos hn, if_pos hn, habs]
  · have habs : n.toNat = n.natAbs := by omega
    rw [psmul, if_neg hn, if_neg hn, habs]

/-- A natural scalar is not redirected. -/
@[simp] theorem psmul_natCast (a p : Nat) (q : Pt) (n : Nat) : psmul a p q n = dbladd a p q n := by
  rw [psmul_eq_dbladd, if_neg (by omega), Int.natAbs_natCast]

/-- Settles O32: for n = 0 both sides are Identity, and for n > 0 the redirection is taken. -/
theorem negativeScalarRedirects : Obligations.NegativeScalarRedirects := by
  intro a p n q
  rw [psmul_natCast, psmul_eq_dbladd, Int.natAbs_neg, Int.natAbs_natCast]
  obtain rfl | hn := Nat.eq_zero_or_pos n
  · rfl
  · rw [if_pos (by omega)]

/-- The loop and its start, for every magnitude (43_scalar_multiply R140). -/
theorem dbladd_eq_loop (a p : Nat) (q : Pt) (n : Nat) : dbladd a p q n = smulLoop a p (dbladdStart q n) := by
  rw [← psmul_natCast, psmul_eq_loop, psmulStart, if_neg (by omega), Int.toNat_natCast]

/-- The only error of `dbladd` is FATAL (43_scalar_multiply R141). -/
theorem dbladd_error {a p : Nat} {q : Pt} {n : Nat} {e : ErrCode} (h : dbladd a p q n = .error e) : e = .fatal :=
  smulLoop_error (dbladd_eq_loop a p q n ▸ h)

/-! ## One step of the loop, of the doublings and of the sum -/

/-- The addition of an iteration: `t` is added where the bit is set (43_scalar_multiply R140). -/
def addAtBit (a p : Nat) (bit : Bool) (r t : Pt) : Except ErrCode Pt := if bit then padd a p r t else .ok r

theorem addAtBit_error {a p : Nat} {bit : Bool} {r t : Pt} {e : ErrCode} (h : addAtBit a p bit r t = .error e) :
    e = .fatal := by
  cases bit with
  | false => cases h
  | true => exact padd_error h

section
variable {a p n k : Nat} {q : Pt}

/-- An iteration answers exactly when its addition and its doubling do (43_scalar_multiply R140, R144). -/
theorem smulIter_eq_ok_iff {r t : Pt} {m : Nat} {w : SmulLoop} :
    smulIter a p ⟨r, t, m⟩ = .ok w ↔
      addAtBit a p (m.testBit 0) r t = .ok w.result ∧ padd a p t t = .ok w.temp ∧ w.n = m / 2 := by
  have hbit : (if m % 2 = 1 then padd a p r t else .ok r) = addAtBit a p (m.testBit 0) r t := by
    simp [addAtBit, Nat.testBit_zero]
  rw [smulIter, hbit]
  obtain ⟨r', t', m'⟩ := w
  cases addAtBit a p (m.testBit 0) r t <;> cases padd a p t t <;> simp [eq_comm]

theorem doublings_succ_eq_ok_iff {t : Pt} :
    doublings a p q (k + 1) = .ok t ↔ ∃ t', doublings a p q k = .ok t' ∧ padd a p t' t' = .ok t := by
  rw [doublings]
  cases doublings a p q k <;> simp

theorem partialSum_succ_eq_ok_iff {r : Pt} :
    partialSum a p q n (k + 1) = .ok r ↔
      ∃ r' t', partialSum a p q n k = .ok r' ∧ doublings a p q k = .ok t' ∧
        addAtBit a p (n.testBit k) r' t' = .ok r := by
  rw [partialSum]
  cases partialSum a p q n k <;> cases doublings a p q k <;> simp [addAtBit]

/-- The only error of a doubling is FATAL. -/
theorem doublings_error {e : ErrCode} (h : doublings a p q k = .error e) : e = .fatal := by
  induction k with
  | zero => cases h
  | succ k ih =>
    rw [doublings] at h
    split at h
    · exact padd_error h
    · next hk => cases h; exact ih hk

/-- The only error of the sum is FATAL. -/
theorem partialSum_error {e : ErrCode} (h : partialSum a p q n k = .error e) : e = .fatal := by
  induction k with
  | zero => cases h
  | succ k ih =>
    rw [partialSum] at h
    split at h
    · exact addAtBit_error h
    · next hk => cases h; exact doublings_error hk
    · next hk => cases h; exact ih hk

/-! ## The loop variables after `k` iterations -/

/-- The last of `k + 1` iterations, taken apart. -/
theorem smulAdvance_succ (a p k : Nat) (w : SmulLoop) :
    smulAdvance a p (k + 1) w = smulAdvance a p 1 (smulAdvance a p k w) := by
  induction k generalizing w with
  | zero => rfl
  | succ k ih =>
    by_cases h : w.n = 0
    · simp [smulAdvance, h]
    · cases hi : smulIter a p w with
      | error e => simp [smulAdvance, h, hi]
      | ok w' => simpa [smulAdvance, h, hi] using ih w'

/-- Before `bitlength(n)` iterations some of n is left. -/
theorem div_two_pow_ne_zero (h : k < n.size) : n / 2 ^ k ≠ 0 :=
  Nat.div_ne_zero_iff.2 ⟨by positivity, Nat.lt_size.1 h⟩

/-- After `bitlength(n)` iterations nothing of n is left. -/
theorem div_two_pow_size (n : Nat) : n / 2 ^ n.size = 0 := Nat.div_eq_of_lt (Nat.lt_size_self n)

/-- Iteration `k` is step `k` of the sum and of the doublings. -/
theorem smulIter_of_step {r t : Pt} (hr : partialSum a p q n k = .ok r) (ht : doublings a p q k = .ok t)
    {w : SmulLoop} :
    smulIter a p ⟨r, t, n / 2 ^ k⟩ = .ok w ↔
      partialSum a p q n (k + 1) = .ok w.result ∧ doublings a p q (k + 1) = .ok w.temp ∧ w.n = n / 2 ^ (k + 1) := by
  rw [smulIter_eq_ok_iff, partialSum_succ_eq_ok_iff, doublings_succ_eq_ok_iff, Nat.testBit_div_two_pow, zero_add,
    Nat.div_div_eq_div_mul, ← pow_succ]
  simp [hr, ht]

/-- After `k` iterations that raise nothing the loop variables are the sum, the last doubling and what is left of n
(43_scalar_multiply R140). -/
theorem smulAdvance_eq {r t : Pt} (hk : k ≤ n.size) (hr : partialSum a p q n k = .ok r)
    (ht : doublings a p q k = .ok t) : smulAdvance a p k (dbladdStart q n) = ⟨r, t, n / 2 ^ k⟩ := by
  induction k generalizing r t with
  | zero => cases hr; cases ht; simp [smulAdvance, dbladdStart]
  | succ k ih =>
    obtain ⟨r', t', hr', ht', -⟩ := partialSum_succ_eq_ok_iff.1 hr
    have hiter := (smulIter_of_step hr' ht' (w := ⟨r, t, n / 2 ^ (k + 1)⟩)).2 ⟨hr, ht, rfl⟩
    rw [smulAdvance_succ, ih (by omega) hr' ht']
    simp [smulAdvance, div_two_pow_ne_zero hk, hiter]

/-- The rest of the loop after `k` iterations that raise nothing answers what the whole loop does. -/
theorem dbladd_eq_rest {r t : Pt} (hk : k ≤ n.size) (hr : partialSum a p q n k = .ok r)
    (ht : doublings a p q k = .ok t) : dbladd a p q n = smulLoop a p ⟨r, t, n / 2 ^ k⟩ := by
  rw [dbladd_eq_loop, ← smulLoop_advance a p k, smulAdvance_eq hk hr ht]

/-- Where the loop answers, no addition and no doubling of its iterations has raised (43_scalar_multiply R140, R144). -/
theorem steps_ok_of_dbladd {s : Pt} (h : dbladd a p q n = .ok s) (hk : k ≤ n.size) :
    ∃ r t, partialSum a p q n k = .ok r ∧ doublings a p q k = .ok t := by
  induction k with
  | zero => exact ⟨_, _, rfl, rfl⟩
  | succ k ih =>
    obtain ⟨r, t, hr, ht⟩ := ih (by omega)
    rw [dbladd_eq_rest (by omega) hr ht, smulLoop_step a p (div_two_pow_ne_zero hk)] at h
    cases hi : smulIter a p ⟨r, t, n / 2 ^ k⟩ with
    | error e => rw [hi] at h; cases h
    | ok w =>
      obtain ⟨hr', ht', -⟩ := (smulIter_of_step hr ht).1 hi
      exact ⟨_, _, hr', ht'⟩

/-- The whole loop answers the sum over all bits, where all doublings answer (43_scalar_multiply R140, R143). -/
theorem dbladd_of_steps {r t : Pt} (hr : partialSum a p q n n.size = .ok r) (ht : doublings a p q n.size = .ok t) :
    dbladd a p q n = .ok r := by
  rw [dbladd_eq_rest le_rfl hr ht, smulLoop_zero a p (div_two_pow_size n)]

theorem dbladd_eq_ok_iff {r : Pt} :
    dbladd a p q n = .ok r ↔ partialSum a p q n n.size = .ok r ∧ ∃ t, doublings a p q n.size = .ok t := by
  refine ⟨fun h => ?_, fun ⟨hr, _, ht⟩ => dbladd_of_steps hr ht⟩
  obtain ⟨r', t, hr, ht⟩ := steps_ok_of_dbladd h le_rfl
  rw [dbladd_of_steps hr ht] at h
  exact ⟨hr.trans h, t, ht⟩

/-- Where the loop does not answer, it raises FATAL. -/
theorem dbladd_eq_fatal (h : ∀ r, dbladd a p q n ≠ .ok r) : dbladd a p q n = .error .fatal := by
  cases hd : dbladd a p q n with
  | ok r => exact absurd hd (h r)
  | error e => rw [dbladd_error hd]

end

/-! ## The obligations on the loop and on SMUL -/

/-- Settles O33: the loop variables are those of the two recursions, and bit length is where n runs out. An error of the sum
is the loop's, since both can only be FATAL. -/
theorem loopRunsBitLengthIterations : Obligations.LoopRunsBitLengthIterations := by
  intro a p n q
  simp only [psmul_natCast]
  refine ⟨fun s h => ?ends, fun k r t hk hr ht => smulAdvance_eq hk hr ht, fun r => dbladd_eq_ok_iff,
    fun k e hk he => ?raises⟩
  case ends =>
    obtain ⟨hr, t, ht⟩ := dbladd_eq_ok_iff.1 h
    rw [smulAdvance_eq le_rfl hr ht]
    refine ⟨div_two_pow_size n, rfl, fun k hk => ?_⟩
    obtain ⟨r', t', hr', ht'⟩ := steps_ok_of_dbladd h hk.le
    rw [smulAdvance_eq hk.le hr' ht']
    exact div_two_pow_ne_zero hk
  case raises =>
    rw [partialSum_error he]
    refine dbladd_eq_fatal fun s h => ?_
    obtain ⟨r, t, hr, -⟩ := steps_ok_of_dbladd h hk
    rw [he] at hr
    cases hr

/-- Settles O34: the loop answers only with all its doublings, and the error of a doubling is the loop's, since both can
only be FATAL. -/
theorem trailingDoublingIsDone : Obligations.TrailingDoublingIsDone := by
  refine ⟨fun a p q n _ r hr => ?_, fun a p q t ht => ?_, by decide, by decide, by decide⟩
  · rw [psmul_eq_dbladd, ← hr]
    refine ⟨fun s h => (dbladd_eq_ok_iff.1 h).2, fun e he => ?_⟩
    rw [doublings_error he]
    refine dbladd_eq_fatal fun s h => ?_
    obtain ⟨-, t, ht⟩ := dbladd_eq_ok_iff.1 h
    rw [he] at ht
    cases ht
  · rw [← Nat.cast_one, psmul_natCast]
    exact dbladd_of_steps (n := 1) rfl (show doublings a p q 1 = .ok t from ht)

/-- Settles O19: the operation of SMUL is `psmul` of P1 and the signed scalar of the snapshot. -/
theorem smulCommitsTheMultiple : Obligations.SmulCommitsTheMultiple :=
  fun _ hb hf hp h1 => completes_pointOutcome rfl hb hf (execute_snapshot .smul hp (fun _ => h1) nofun)

end Sys2Proof.Proofs
end

