-- ==== Sys2Proof/Proofs/ScalarLinearity.lean ====
section
/-! PROOFS. Scalar multiplication is linear (43_scalar_multiply R145): on a good curve the in-range on-curve points stand for
the elements of Mathlib's group of the curve, `padd` is its addition, and so doublings, sums and `psmul` are multiples. -/

namespace Sys2Proof.Proofs

open Sys2Proof.Machine Sys2Proof.Laws Sys2Proof.Expect

/-! ## Points as elements of the curve's group -/

/-- An in-range point stands for an element of the group of the curve. -/
def StandsFor (a b p : Nat) : Pt → (shortCurve a b p).Point → Prop
  | .identity, g => g = 0
  | .affine x y, g => x < p ∧ y < p ∧ ∃ h, g = .some (x : ZMod p) (y : ZMod p) h

section
variable {a b p : Nat}

/-- Two coordinates in range are equal where they are equal modulo p. -/
theorem eq_of_cast_eq {x y : Nat} (hx : x < p) (hy : y < p) (h : (x : ZMod p) = y) : x = y :=
  Nat.ModEq.eq_of_lt_of_lt ((ZMod.natCast_eq_natCast_iff x y p).1 h) hx hy

/-- An element of the group has one in-range point. -/
theorem StandsFor.unique {q r : Pt} {g : (shortCurve a b p).Point} (hq : StandsFor a b p q g) (hr : StandsFor a b p r g) :
    q = r := by
  cases q with
  | identity =>
    cases hq
    cases r with
    | identity => rfl
    | affine x y => obtain ⟨-, -, h, h0⟩ := hr; cases h0
  | affine x1 y1 =>
    obtain ⟨hx1, hy1, h1, rfl⟩ := hq
    cases r with
    | identity => cases hr
    | affine x2 y2 =>
      obtain ⟨hx2, hy2, h2, h⟩ := hr
      obtain ⟨hx, hy⟩ := WeierstrassCurve.Affine.Point.some.inj h
      rw [eq_of_cast_eq hx1 hx2 hx, eq_of_cast_eq hy1 hy2 hy]

/-- The condition of R132 on the coefficients is a nonzero discriminant. -/
theorem shortCurve_Δ_ne_zero (h : goodCurve a b p) : (shortCurve a b p).Δ ≠ 0 := by
  obtain ⟨hp, hp3, hab⟩ := h
  have hΔ : (shortCurve a b p).Δ = -((2 ^ 4 * (4 * a ^ 3 + 27 * b ^ 2) : Nat) : ZMod p) := by
    simp only [WeierstrassCurve.Δ, WeierstrassCurve.b₂, WeierstrassCurve.b₄, WeierstrassCurve.b₆, WeierstrassCurve.b₈,
      shortCurve]
    push_cast
    ring
  rw [hΔ, neg_ne_zero, Ne, ZMod.natCast_eq_zero_iff, hp.dvd_mul, not_or]
  refine ⟨fun h2 => ?_, hab⟩
  have := Nat.le_of_dvd two_pos (hp.dvd_of_dvd_pow h2)
  omega

/-- Every in-range on-curve point of a good curve stands for an element of the group. -/
theorem exists_standsFor (h : goodCurve a b p) {q : Pt} (hq : q.inRange p = true) (hon : onCurve a b p q) :
    ∃ g, StandsFor a b p q g := by
  cases q with
  | identity => exact ⟨0, rfl⟩
  | affine x y =>
    obtain ⟨hx, hy⟩ := (inRange_affine p x y).1 hq
    have hns := (WeierstrassCurve.Affine.equation_iff_nonsingular_of_Δ_ne_zero (shortCurve_Δ_ne_zero h)).1
      ((onCurve_affine_iff a b p x y).1 hon)
    exact ⟨_, hx, hy, hns, rfl⟩

/-! ## Addition -/

variable [Fact p.Prime]

/-- Where the denominator is 0 modulo p, two in-range points with the curve equation are opposite (42_point_ops R127). -/
theorem opposite_of_dvd_den {x1 y1 x2 y2 : Nat} (hx1 : x1 < p) (hy1 : y1 < p) (hx2 : x2 < p) (hy2 : y2 < p)
    (h1 : (shortCurve a b p).Equation x1 y1) (h2 : (shortCurve a b p).Equation x2 y2)
    (hden : (p : Int) ∣ slopeDen x1 y1 x2 y2) :
    (x1 : ZMod p) = x2 ∧ (y1 : ZMod p) = (shortCurve a b p).negY x2 y2 := by
  rw [← ZMod.intCast_zmod_eq_zero_iff_dvd] at hden
  by_cases heq : x1 = x2 ∧ y1 = y2
  · obtain ⟨rfl, rfl⟩ := heq
    rw [slopeDen_double] at hden
    push_cast at hden
    refine ⟨rfl, ?_⟩
    rw [shortCurve_negY]
    linear_combination hden
  · rw [slopeDen, if_neg heq] at hden
    push_cast at hden
    have hx : (x1 : ZMod p) = x2 := (sub_eq_zero.1 hden).symm
    have hy : (y1 : ZMod p) ≠ y2 := fun hy => heq ⟨eq_of_cast_eq hx1 hx2 hx, eq_of_cast_eq hy1 hy2 hy⟩
    exact ⟨hx, (WeierstrassCurve.Affine.Y_eq_of_X_eq h1 h2 hx).resolve_left hy⟩

/-- The group law is the addition of the curve's group (42_point_ops R125 to R128). -/
theorem StandsFor.exists_padd {q r : Pt} {g g' : (shortCurve a b p).Point} (hq : StandsFor a b p q g)
    (hr : StandsFor a b p r g') : ∃ t, padd a p q r = .ok t ∧ StandsFor a b p t (g + g') := by
  have hp : 0 < p := (Fact.out : p.Prime).pos
  cases q with
  | identity =>
    cases hq
    exact ⟨r, rfl, by rwa [zero_add]⟩
  | affine x1 y1 =>
    cases r with
    | identity =>
      cases hr
      exact ⟨_, rfl, by rwa [add_zero]⟩
    | affine x2 y2 =>
      obtain ⟨hx1, hy1, h1, rfl⟩ := hq
      obtain ⟨hx2, hy2, h2, rfl⟩ := hr
      by_cases hden : (p : Int) ∣ slopeDen x1 y1 x2 y2
      · obtain ⟨hx, hy⟩ := opposite_of_dvd_den hx1 hy1 hx2 hy2 h1.1 h2.1 hden
        exact ⟨_, padd_of_dvd_den a hp hden, WeierstrassCurve.Affine.Point.add_of_Y_eq hx hy⟩
      · obtain ⟨x3, y3, hsum, hx, hy⟩ := padd_eq_curve_add a b hden
        have hrange : (Pt.affine x3 y3).inRange p = true :=
          padd_inRange hp ((inRange_affine ..).2 ⟨hx1, hy1⟩) ((inRange_affine ..).2 ⟨hx2, hy2⟩) hsum
        obtain ⟨hx3, hy3⟩ := (inRange_affine ..).1 hrange
        refine ⟨_, hsum, hx3, hy3, ?_⟩
        rw [hx, hy]
        exact ⟨_, WeierstrassCurve.Affine.Point.add_some (not_opposite a b hden)⟩

/-! ## Multiples -/

/-- `k` doublings multiply by 2^k. -/
theorem StandsFor.exists_doublings {q : Pt} {g : (shortCurve a b p).Point} (hq : StandsFor a b p q g) (k : Nat) :
    ∃ t, doublings a p q k = .ok t ∧ StandsFor a b p t (2 ^ k • g) := by
  induction k with
  | zero => exact ⟨q, rfl, by rwa [pow_zero, one_nsmul]⟩
  | succ k ih =>
    obtain ⟨t, ht, hg⟩ := ih
    obtain ⟨t', ht', hg'⟩ := hg.exists_padd hg
    refine ⟨t', doublings_succ_eq_ok_iff.2 ⟨t, ht, ht'⟩, ?_⟩
    rwa [pow_succ, mul_two, add_nsmul]

/-- The sum at the bits of n below `k` multiplies by the number they write (43_scalar_multiply R140). -/
theorem StandsFor.exists_partialSum {q : Pt} {g : (shortCurve a b p).Point} (hq : StandsFor a b p q g) (n k : Nat) :
    ∃ r, partialSum a p q n k = .ok r ∧ StandsFor a b p r ((n % 2 ^ k) • g) := by
  induction k with
  | zero => exact ⟨.identity, rfl, by rw [pow_zero, Nat.mod_one, zero_nsmul]; rfl⟩
  | succ k ih =>
    obtain ⟨r, hr, hgr⟩ := ih
    obtain ⟨t, ht, hgt⟩ := hq.exists_doublings k
    simp only [partialSum_succ_eq_ok_iff, hr, ht, Nat.mod_pow_succ, ← Nat.toNat_testBit]
    cases n.testBit k with
    | false => exact ⟨r, ⟨r, t, rfl, rfl, rfl⟩, by simpa using hgr⟩
    | true =>
      obtain ⟨u, hu, hgu⟩ := hgr.exists_padd hgt
      exact ⟨u, ⟨r, t, rfl, rfl, hu⟩, by simpa [add_nsmul] using hgu⟩

/-- Scalar multiplication is the multiple in the curve's group (43_scalar_multiply R145). -/
theorem StandsFor.exists_psmul {q : Pt} {g : (shortCurve a b p).Point} (hq : StandsFor a b p q g) (n : Nat) :
    ∃ r, psmul a p q n = .ok r ∧ StandsFor a b p r (n • g) := by
  obtain ⟨r, hr, hg⟩ := hq.exists_partialSum n n.size
  obtain ⟨t, ht, -⟩ := hq.exists_doublings n.size
  rw [Nat.mod_eq_of_lt (Nat.lt_size_self n)] at hg
  exact ⟨r, (psmul_natCast a p q n).trans (dbladd_of_steps hr ht), hg⟩

end

/-- Settles O31: both sides stand for the multiple by m + n, and an element of the group has one in-range point. -/
theorem scalarMultiplyIsLinear : Obligations.ScalarMultiplyIsLinear := by
  intro a b p m n q hgood hq hon
  have : Fact p.Prime := ⟨hgood.1⟩
  obtain ⟨g, hg⟩ := exists_standsFor hgood hq hon
  obtain ⟨r, hr, hgr⟩ := hg.exists_psmul m
  obtain ⟨t, ht, hgt⟩ := hg.exists_psmul n
  obtain ⟨u, hu, hgu⟩ := hgr.exists_padd hgt
  obtain ⟨v, hv, hgv⟩ := hg.exists_psmul (m + n)
  rw [add_nsmul] at hgv
  rw [hgv.unique hgu, Nat.cast_add] at hv
  exact ⟨r, t, u, hr, ht, hu, hv⟩

end Sys2Proof.Proofs
end

