-- ==== Sys2Proof/Proofs/FailedChecks.lean ====
section
/-! PROOFS. The commands that fail a check (60_exceptions R152, R153): the outcome of `Execute` is the code of the check,
and the completion of an error commits nothing (10_state R50). -/

namespace Sys2Proof.Proofs

open Sys2Proof.Machine Sys2Proof.Expect

/-- Settles O21: the snapshot holds P and the points as they stand, so the clause of `checksFailInOrder` for the check
gives the outcome, and an error completes as `Expect.failed`. -/
theorem failedChecksCommitNothing : Obligations.FailedChecksCommitNothing := by
  intro i op s hi hop hb hf
  obtain ⟨-, hparam, hrangeP1, hrangeP2, -⟩ := checksFailInOrder (s.snapshot op)
  have hfailed : ∀ {e}, execute (s.snapshot op) = .error e → completes i s (failed s op e) := completes_failed hi hb hf
  refine ⟨fun hp => ?param, fun hp hne h1 => ?rangeP1, fun hp hadd h1 h2 => ?rangeP2⟩
  case param => exact hfailed (hparam hop hp)
  case rangeP1 => exact hfailed (hrangeP1 hop hp hne h1)
  case rangeP2 => exact hfailed (hrangeP2 hadd hp h1 h2)

end Sys2Proof.Proofs
end

