-- ==== Sys2Proof/Proofs/Reset.lean ====
section
/-! PROOFS. Reset: SRST, the hardware reset and the state they leave (70_reset_and_hazards R170 to R172, 10_state R52). -/

namespace Sys2Proof.Proofs

open Sys2Proof.Machine Sys2Proof.Laws Sys2Proof.Expect

/-- The machine's reset is the reset values of 10_state R52 written out. -/
theorem resetCore_eq_resetValues (s : State) : s.resetCore = resetValues s := rfl

/-- A full write of CTRL with bit 1 set is the reset and its response (30_encoding R81, 70_reset_and_hazards R171). -/
theorem busWrite_ctrl_srst (s : State) {d : Word} (h : d.getLsbD 1 = true) :
    s.busWrite 0x008 d 0b1111 = .next (s.resetCore.respond (.write false)) := by
  rw [busWrite_ctrl, decodeWord_srst h]
  rfl

/-- Settles O11: such a word decodes to SRST, whose meaning is the reset. -/
theorem srstResetsAllState : Obligations.SrstResetsAllState :=
  fun s _ h => ⟨decodeWord_srst h, congrArg Host.Outcome.next (resetCore_eq_resetValues s), busWrite_ctrl_srst s h⟩

/-- With the engine idle and no host action pending the core waits (70_reset_and_hazards R170). -/
theorem step_of_waiting {s : State} (hr : s.rstN = true) (hb : s.busy = false) (hin : s.inbox = []) :
    step s = .next s := by
  rw [step_of_hostNext (hostNext_of_not_busy hr hb), tick_of_not_busy hb, State.hostTurn, hin]

/-- While rst_n is asserted and no host action is pending the reset values are held (70_reset_and_hazards R170). -/
theorem step_of_reset_idle {s : State} (hr : s.rstN = false) (hin : s.inbox = []) : step s = .next s.resetCore := by
  rw [step_of_reset hr, State.heldInReset, hin]

/-- Asserting rst_n is the reset (70_reset_and_hazards R170). -/
theorem perform_assert_reset (s : State) : s.perform (.rst false) = .next { s.resetCore with rstN := false } := rfl

/-- Settles O12: the engine tick before the assertion moves only what the reset discards and the draw counter; while rst_n
is asserted the step is decided by the oldest action. -/
theorem hardwareResetHoldsResetValues : Obligations.HardwareResetHoldsResetValues := by
  intro s rest
  refine ⟨fun hnext hin => ?asserted, fun hr hin => step_of_reset_idle hr hin, fun hr level hin => ?level,
    fun hr item hin hne => ?refused, fun hr hb hin => step_of_waiting hr hb hin⟩
  case asserted =>
    refine ⟨_, (step_of_action hnext hin).trans (perform_assert_reset _), ?_, rfl⟩
    simp only [resetCore_eq_resetValues, resetValues, State.tick_cfg, State.tick_resp]
  case level =>
    rw [step_of_reset hr, State.heldInReset, hin]
    rfl
  case refused =>
    rw [step_of_reset hr, State.heldInReset, hin]
    cases item with
    | rst level => exact absurd rfl (hne level)
    | read addr => rfl
    | write addr d strb => rfl
    | wait => rfl

/-- A state that a step leaves as it is stays for any number of steps. -/
theorem run_of_fixed {M : Host.Core} {s : M.State} (h : M.step s = .next s) (n : Nat) : M.run n s = .next s := by
  induction n with
  | zero => rfl
  | succ n ih => rw [run_succ_of_step h, ih]

/-- With no host action pending a reset state stays as it is, at either level of rst_n. -/
theorem step_resetCore {s : State} (hin : s.inbox = []) : step s.resetCore = .next s.resetCore := by
  cases hr : s.rstN with
  | true => exact step_of_waiting hr rfl hin
  | false => exact step_of_reset_idle hr hin

/-- Settles O13: SRST leaves a reset state, which has no command in flight and stays as it is. -/
theorem abandonedCommandNeverCompletes : Obligations.AbandonedCommandNeverCompletes := by
  intro s t n _ hin ht
  cases ht
  exact ⟨run_of_fixed (M := Sys2Proof.core) (step_resetCore hin) n, rfl, rfl, rfl, rfl, rfl, rfl⟩

end Sys2Proof.Proofs
end

