-- ==== Sys2Proof/Proofs/CommandInFlight.lean ====
section
/-! PROOFS. A command in flight: it runs to its completion event whatever the host does short of a reset, STATUS is quiet
meanwhile, and only the completion and a reset change the results (70_reset_and_hazards R176, R178 to R180). The run and the
results both rest on what a host action short of a reset leaves alone (`undisturbed_perform`). -/

namespace Sys2Proof.Proofs

open Sys2Proof.Machine Sys2Proof.Laws Sys2Proof.Expect

/-- Settles O57: STATUS shows ERR and DONE, and a busy engine of the invariant has both 0. -/
theorem statusIsQuietWhileBusy : Obligations.StatusIsQuietWhileBusy := by
  intro s hs hb
  obtain ⟨hdone, herr, -⟩ := hs.busyQuiet hb
  obtain ⟨-, hdoneBit, -, -, -, herrField, -⟩ := statusWord_fields s
  have hread : (s.busRead 0x00C).1 = statusWord s := rfl
  rw [hread, hdoneBit, herrField, herr]
  exact ⟨rfl, hdone⟩

/-! ## The results -/

/-- The results are X3, Y3, R_INF and ONCURVE, each with its value. -/
theorem results_eq_iff {t : State} {x y : Operand} {inf onc : Bool} :
    results t = (x, y, inf, onc) ↔ t.regs.x3 = x ∧ t.regs.y3 = y ∧ t.rInf = inf ∧ t.oncurve = onc := by
  simp only [results, Prod.mk.injEq]

/-- An engine tick moves no result. -/
theorem results_tick (s : State) : results s.tick = results s := by
  simp [results]

/-- A commit leaves the results of its outcome (10_state R48, R49). -/
theorem results_commit (s : State) (res : Result) : results (s.commit res) = resultsAfter s (.ok res) := by
  cases res with
  | point q => cases q <;> rfl
  | inverse x => rfl
  | onCurve b => rfl

/-- What an outcome leaves in the results depends on the results before it alone. -/
theorem resultsAfter_congr {s t : State} (h : results t = results s) (o : Except ErrCode Result) :
    resultsAfter t o = resultsAfter s o := by
  obtain ⟨hx, hy, hinf, honc⟩ := results_eq_iff.1 h
  cases o with
  | error e => exact h
  | ok res =>
    cases res with
    | point q => cases q <;> simp only [resultsAfter, honc]
    | inverse x => simp only [resultsAfter, honc]
    | onCurve b => simp only [resultsAfter, hx, hy, hinf]

/-! ## What the host's actions leave alone -/

/-- The results, and a command in flight if there is one, are the same in `t` as in `s`. -/
structure Undisturbed (s t : State) : Prop where
  results : results t = results s
  eng : s.busy = true → t.eng = s.eng

/-- A request leaves the results alone, and one while busy does not touch the engine (40_command_engine R99). -/
theorem undisturbed_request (s : State) (op : BitVec 4) : Undisturbed s (s.request op) := by
  obtain ⟨hb, -, h⟩ | ⟨-, h⟩ := request_cases s op <;> rw [h]
  · exact ⟨rfl, fun hb' => by rw [hb] at hb'; cases hb'⟩
  · exact ⟨rfl, fun _ => rfl⟩

/-- A CTRL write without SRST disturbs no command. -/
theorem undisturbed_exec {s t : State} {d : Word} (hbit : d.getLsbD 1 = false)
    (ht : exec (decodeWord d) s = .next t) : Undisturbed s t := by
  obtain h | h := exec_of_not_srst hbit s <;> rw [h] at ht <;> cases ht
  · exact undisturbed_request s _
  · exact ⟨rfl, fun _ => rfl⟩

/-- A write off CTRL disturbs no command (10_state R51). -/
theorem undisturbed_writeLoc (s : State) (l : Loc) (d : Word) : Undisturbed s (s.writeLoc l d) := by
  have hcore := writeLoc_keepsCore s l d
  exact ⟨results_eq_iff.2 ⟨hcore.x3, hcore.y3, hcore.rInf, State.writeLoc_oncurve s l d⟩, fun _ => hcore.eng⟩

/-- A bus write that is no SRST disturbs no command. -/
theorem undisturbed_busWrite {s t : State} {off : Offset} {d : Word} {strb : BitVec 4}
    (h : ¬(off = 0x008 ∧ d.getLsbD 1 = true ∧ strb = 0b1111)) (ht : s.busWrite off d strb = .next t) :
    Undisturbed s t := by
  by_cases hstrb : strb = 0b1111
  · obtain ⟨-, hw⟩ | ⟨hl, u, hu, hw⟩ | ⟨-, hw⟩ := busWrite_cases s off d strb <;> rw [hw] at ht <;> cases ht
    · exact ⟨rfl, fun _ => rfl⟩
    · have hbit : d.getLsbD 1 = false := eq_false_of_ne_true fun hd => h ⟨locate_eq_ctrl hl, hd, hstrb⟩
      obtain ⟨hres, heng⟩ := undisturbed_exec hbit hu
      exact ⟨hres, heng⟩
    · obtain ⟨hres, heng⟩ := undisturbed_writeLoc s (locate off) d
      exact ⟨hres, heng⟩
  · obtain ⟨-, -, hbad, -⟩ := busErrorsChangeNothing s off d strb
    rw [hbad (.inr hstrb)] at ht
    cases ht
    exact ⟨rfl, fun _ => rfl⟩

/-- A host action that is no reset disturbs no command (70_reset_and_hazards R180). -/
theorem undisturbed_perform {s t : State} {item : HostItem} (hitem : isReset s.cfg item = false)
    (ht : s.perform item = .next t) : Undisturbed s t := by
  cases item with
  | read addr =>
    cases hoff : windowOffset s.cfg addr with
    | none => rw [perform_read_outside hoff] at ht; cases ht
    | some off =>
      rw [perform_read hoff] at ht
      cases ht
      exact ⟨rfl, fun _ => rfl⟩
  | write addr d strb =>
    cases hoff : windowOffset s.cfg addr with
    | none => rw [perform_write_outside hoff] at ht; cases ht
    | some off =>
      rw [perform_write hoff] at ht
      refine undisturbed_busWrite ?_ ht
      rintro ⟨rfl, hd, rfl⟩
      have haddr : addr = s.cfg.base + 8 := windowOffset_some hoff
      simp only [isReset, haddr, hd, beq_self_eq_true, Bool.and_self, Bool.true_eq_false] at hitem
  | wait =>
    cases ht
    split <;> exact ⟨rfl, fun _ => rfl⟩
  | rst level =>
    cases level with
    | false => cases hitem
    | true => cases ht; exact ⟨rfl, fun _ => rfl⟩

/-- A host action that is a reset leaves the engine idle and the results 0 (70_reset_and_hazards R170, R171). -/
theorem reset_perform {s t : State} {item : HostItem} (hitem : isReset s.cfg item = true)
    (ht : s.perform item = .next t) : t.busy = false ∧ results t = (0, 0, false, false) := by
  cases item with
  | read addr => cases hitem
  | write addr d strb =>
    obtain ⟨⟨rfl, hd⟩, rfl⟩ : (addr = s.cfg.base + 8 ∧ d.getLsbD 1 = true) ∧ strb = 0b1111 := by
      simpa [isReset] using hitem
    rw [(perform_write (windowOffset_base s.cfg 8 (by decide))).trans (busWrite_ctrl_srst s hd)] at ht
    cases ht
    exact ⟨rfl, rfl⟩
  | wait => cases hitem
  | rst level =>
    cases level with
    | false => cases ht; exact ⟨rfl, rfl⟩
    | true => cases hitem

/-! ## What a step does to the results -/

/-- A completion leaves the results of its outcome (40_command_engine R101, R103). -/
theorem results_engineComplete {s : State} {r : Running} (he : s.eng = .busy r) :
    results s.engineComplete = resultsAfter s r.outcome := by
  obtain ⟨res, ho, h⟩ | ⟨e, ho, h⟩ := engineComplete_busy he <;> rw [h, ho]
  · exact results_commit s res
  · rfl

/-- Settles O37: of the five forms of a step the tick moves no result, the completion event moves them only where it
succeeds, and the host's turn only where its action is a reset. -/
theorem resultsChangeOnlyAtCompletion : Obligations.ResultsChangeOnlyAtCompletion := by
  intro s t hstep
  obtain ⟨hr, ⟨r, he, hl⟩, rfl⟩ | ⟨-, -, -, rfl⟩ | ⟨hr, hnot, item, rest, hin, hp⟩ | ⟨hr, -, rfl⟩ |
    ⟨hr, level, rest, -, rfl⟩ := step_cases hstep
  · cases ho : r.outcome with
    | ok res => exact .inr (.inl ⟨hr, r, res, he, hl, ho⟩)
    | error e => exact .inl (results_eq_iff.1 (by rw [results_engineComplete he, ho]; rfl))
  · exact .inl (results_eq_iff.1 (results_tick s))
  · have hcfg : isReset s.tick.cfg item = isReset s.cfg item := by rw [State.tick_cfg]
    cases hreset : isReset s.cfg item with
    | false =>
      obtain ⟨hres, -⟩ := undisturbed_perform (s := { s.tick with inbox := rest }) (hcfg.trans hreset) hp
      exact .inl (results_eq_iff.1 (hres.trans (results_tick s)))
    | true =>
      obtain ⟨hidle, hres⟩ := reset_perform (s := { s.tick with inbox := rest }) (hcfg.trans hreset) hp
      exact .inr (.inr ⟨.inr ⟨⟨hr, hnot⟩, item, by rw [hin]; rfl, hreset⟩, hidle, results_eq_iff.1 hres⟩)
  · exact .inr (.inr ⟨.inl hr, rfl, rfl, rfl, rfl, rfl⟩)
  · exact .inr (.inr ⟨.inl hr, rfl, rfl, rfl, rfl, rfl⟩)

/-! ## The run to the completion event -/

/-- A command with the outcome `o` is in flight, `n` ticks before its completion event is due, and the host keeps its
contract and has no reset pending. -/
structure InFlight (n : Nat) (o : Except ErrCode Result) (s : State) : Prop where
  rstN : s.rstN = true
  eng : ∃ r, s.eng = .busy r ∧ r.latLeft = n ∧ r.outcome = o
  contract : s.contract = true
  noReset : ∀ item ∈ s.inbox, isReset s.cfg item = false

/-- A tick brings the completion event one tick nearer and keeps the outcome (10_state R44). -/
theorem tick_eng_of_busy {s : State} {r : Running} (he : s.eng = .busy r) :
    ∃ r', s.tick.eng = .busy r' ∧ r'.latLeft = r.latLeft - 1 ∧ r'.outcome = r.outcome := by
  rw [State.tick, he]
  exact ⟨_, rfl, rfl, advance_outcome r _ _⟩

/-- A host action that is no reset leaves rst_n deasserted. -/
theorem rstN_of_takesAction {s t : State} {item : HostItem} (h : TakesAction item s t) (hr : s.rstN = true)
    (hitem : isReset s.cfg item = false) : t.rstN = true := by
  have hlevel : levelAfter true item = true := by
    cases item with
    | rst level => simpa [isReset, levelAfter] using hitem
    | _ => rfl
  obtain ⟨-, ht⟩ | ⟨-, ht⟩ := h.turn
  · rw [ht, hr, hlevel]
  · rw [ht, hr]

/-- Before the completion event is due a step with no reset pending is a tick that nothing disturbs. -/
theorem step_undisturbed {s t : State} (hnext : hostNext s) (hno : ∀ item ∈ s.inbox, isReset s.cfg item = false)
    (hstep : step s = .next t) : Undisturbed s.tick t ∧ t.rstN = true ∧ t.cfg = s.cfg := by
  obtain ⟨hr, hnot⟩ := hnext
  obtain ⟨-, ⟨r, he, hl⟩, -⟩ | ⟨-, -, -, rfl⟩ | ⟨-, -, item, rest, hin, hp⟩ | ⟨hn, -, -⟩ | ⟨hn, -⟩ := step_cases hstep
  · exact absurd hl (hnot r he)
  · exact ⟨⟨rfl, fun _ => rfl⟩, by simpa using hr, State.tick_cfg s⟩
  · have hitem : isReset s.tick.cfg item = false := by
      rw [State.tick_cfg]
      exact hno item (by simp [hin])
    have hr' : s.tick.rstN = true := by simpa using hr
    obtain ⟨hres, heng⟩ := undisturbed_perform (s := { s.tick with inbox := rest }) hitem hp
    have htakes := perform_takesAction (s := { s.tick with inbox := rest }) hr' hp
    exact ⟨⟨hres, heng⟩, rstN_of_takesAction htakes hr' hitem, htakes.cfg.trans s.tick_cfg⟩
  · rw [hr] at hn; cases hn
  · rw [hr] at hn; cases hn

/-- No step puts a new action into the inbox (20_memory R61). -/
theorem mem_inbox_of_step {s t : State} (hstep : step s = .next t) {item : HostItem} (h : item ∈ t.inbox) :
    item ∈ s.inbox := by
  obtain ⟨⟨hin | ⟨head, hin⟩, -⟩, -⟩ := oneEventPerStep s t hstep
  · rwa [← hin]
  · rw [hin]
    exact List.mem_cons_of_mem head h

/-- Before the completion event is due every step brings it nearer and leaves the results alone. -/
theorem inFlight_step {n : Nat} {o : Except ErrCode Result} {s : State} (hs : InFlight (n + 1) o s) :
    ∃ t, step s = .next t ∧ InFlight n o t ∧ results t = results s := by
  obtain ⟨hr, ⟨r, he, hl, ho⟩, hcontract, hno⟩ := hs
  have hnext : hostNext s := ⟨hr, fun r' he' => by rw [he] at he'; cases he'; omega⟩
  obtain ⟨t, hstep⟩ := stepsOn_of_contract hcontract
  obtain ⟨⟨hres, heng⟩, hrt, hcfg⟩ := step_undisturbed hnext hno hstep
  obtain ⟨r', he', hl', ho'⟩ := tick_eng_of_busy he
  have hbusy : s.tick.busy = true := by rw [State.busy, he']; rfl
  refine ⟨t, hstep, ⟨hrt, ⟨r', (heng hbusy).trans he', by omega, ho'.trans ho⟩, step_keepsContract hcontract hstep, ?_⟩,
    hres.trans (results_tick s)⟩
  intro item hitem
  rw [hcfg]
  exact hno item (mem_inbox_of_step hstep hitem)

/-- The run of `n + 1` steps is the completion event of a state whose command has the same outcome and whose results are
those of the start. -/
theorem inFlight_run {n : Nat} {o : Except ErrCode Result} {s : State} (hs : InFlight n o s) :
    ∃ t, Sys2Proof.core.run (n + 1) s = .next t.engineComplete ∧ InFlight 0 o t ∧ results t = results s := by
  induction n generalizing s with
  | zero =>
    obtain ⟨r, he, hl, -⟩ := hs.eng
    exact ⟨s, run_succ_of_step (M := Sys2Proof.core) (step_of_due hs.rstN he hl) 0, hs, rfl⟩
  | succ n ih =>
    obtain ⟨u, hstep, hu, hres⟩ := inFlight_step hs
    obtain ⟨t, hrun, ht, hres'⟩ := ih hu
    exact ⟨t, (run_succ_of_step (M := Sys2Proof.core) hstep (n + 1)).trans hrun, ht, hres'.trans hres⟩

/-- A completion sets DONE, and ERR to the code of the outcome, with FATAL for ERR_FATAL (40_command_engine R101). -/
theorem engineComplete_status {s : State} {r : Running} (he : s.eng = .busy r) :
    s.engineComplete.done = true ∧ (∀ res, r.outcome = .ok res → s.engineComplete.err = .none) ∧
      ∀ e, r.outcome = .error e → s.engineComplete.err = e ∧ (e = .fatal → s.engineComplete.fatal = true) := by
  obtain ⟨res, ho, h⟩ | ⟨e, ho, h⟩ := engineComplete_busy he <;> rw [h, ho]
  · exact ⟨rfl, fun _ _ => rfl, nofun⟩
  · refine ⟨rfl, nofun, fun e' he' => ?_⟩
    cases he'
    exact ⟨rfl, fun hfatal => by simp [hfatal]⟩

/-- Settles O36: the run keeps the outcome and the results up to the completion event, which leaves those of the outcome;
and an accepted request starts SMUL's loop where its outcome is that of `Execute`. -/
theorem acceptedCommandCompletes : Obligations.AcceptedCommandCompletes := by
  refine ⟨fun s r hr he hcontract hno => ?completes, fun i op s u r hi hb hf hu he => ?accepted⟩
  case completes =>
    obtain ⟨t, hrun, ht, hres⟩ := inFlight_run ⟨hr, ⟨r, he, rfl, rfl⟩, hcontract, hno⟩
    obtain ⟨r', he', -, ho⟩ := ht.eng
    obtain ⟨hdone, hok, herror⟩ := engineComplete_status he'
    rw [ho] at hok herror
    refine ⟨t.engineComplete, hrun, engineComplete_busy_false t, hdone, ?_, hok, herror⟩
    rw [results_engineComplete he', ho, resultsAfter_congr hres]
  case accepted =>
    rw [exec_of_requestOp hi, request_of_idle hb hf] at hu
    cases hu
    rw [State.accept_eng] at he
    cases he
    exact ⟨rfl, start_outcome _ _, rfl⟩

end Sys2Proof.Proofs
end
